-- ==== Sys2Proof/Word.lean ====
section
/-! DEFINITION. The words of the block: the widths of 00_scope.md R8. Every quantity is unsigned (R9). -/

namespace Sys2Proof

/-- One byte: a command word, a buffer byte, a bitmap, a `VL64` group. -/
abbrev Byte := BitVec 8

/-- One nibble: a `VL32` group, a command's `op` or `idx` field. -/
abbrev Nibble := BitVec 4

/-- The width of `VAL`, `wdata` and `rdata`, and of a `VL64` value. -/
abbrev Word := BitVec 64

/-- The width of a `VL32` value. -/
abbrev Word32 := BitVec 32

end Sys2Proof
end

