-- ==== Sys2Proof/Config.lean ====
section
/-! DEFINITION. The parameters of the block (00_scope.md R8) and its two draws (93_implementation_defined.md
U1 and U2), which are free values: opaque constants that nothing in Lean can evaluate. -/

namespace Sys2Proof

/-- `BUFSIZE`: the bytes of `BUF` (R8, R23). -/
abbrev Config.bufSize : Nat := 9

/-- `MAXLEN32`: `PACK32` writes no byte of `BUF` at or above this index (R117, R8). -/
abbrev Config.maxLen32 : Nat := 5

/-- `NGROUPS`: groups per value in both schemes (R8). -/
abbrev Config.nGroups : Nat := 8

/-- What a byte of `BUF` reads as when the list of cells does not list it: the reset contents (R31). -/
abbrev Config.unlistedByte : Byte := 0x00#8

/-- `RDATA_IDLE` (U2, D13): the read-data word of draw number `n`. FREE VALUE, log 4. -/
opaque Config.rdataIdle (n : Nat) : Word

/-- `TAIL` (U1, D14): the byte that the pack of draw number `n` leaves at `BUF[j]`. FREE VALUE, log 5. -/
opaque Config.tailDraw (n j : Nat) : Byte

end Sys2Proof
end

