-- ==== Sys2Proof/Machine/Bits.lean ====
section
/-! DEFINITION. The bit and group primitives of 00_scope.md R10 and R11, the bitmap of 20_memory.md R46 and
the payload lengths of R47. -/

namespace Sys2Proof.Machine

/-- `popcount(b)`: the number of bits of `b` that are 1 (R10). -/
def popcount (b : Byte) : Nat :=
  ((List.range Config.nGroups).map fun i => (b.getLsbD i).toNat).sum

/-- `ceil(a/2)`, as R10 computes it: `(a + 1) >> 1`. -/
def ceilHalf (a : Nat) : Nat := (a + 1) >>> 1

/-- `byte_k(x)`, bits `8k+7 : 8k` (R11). -/
def byteGroup (x : Word) (k : Nat) : Byte := x.extractLsb' (8 * k) 8

/-- `nib_k(x)`, bits `4k+3 : 4k` (R11). -/
def nibGroup (x : Word32) (k : Nat) : Nibble := x.extractLsb' (4 * k) 4

/-- The bitmap with bit `7−k` set exactly for the groups `k` that carry payload (R46): `{g 0, g 1, …, g 7}`,
group 0 in the most significant bit. -/
def bitmapOf (carries : Nat → Bool) : Byte :=
  BitVec.ofBool (carries 0) ++ BitVec.ofBool (carries 1) ++ BitVec.ofBool (carries 2) ++
    BitVec.ofBool (carries 3) ++ BitVec.ofBool (carries 4) ++ BitVec.ofBool (carries 5) ++
    BitVec.ofBool (carries 6) ++ BitVec.ofBool (carries 7)

/-- `N64(b)`, the payload length of a `VL64` bitmap (R47). -/
def payloadLen64 (b : Byte) : Nat := popcount b

/-- `N32(b)`, the payload length of a `VL32` bitmap (R47). -/
def payloadLen32 (b : Byte) : Nat := ceilHalf (popcount b)

end Sys2Proof.Machine
end

