-- ==== Sys2Proof/Machine/State.lean ====
section
/-! DEFINITION. The state of the block (10_state.md R20), its ports (R29) and the counter of free draws; the
reasons a step of the model can stop; the state after reset (R31). -/

namespace Sys2Proof.Machine

/-- The inputs the host drives in one step (R29). -/
structure PortIn where
  rst : Bool
  cmdValid : Bool
  cmd : Byte
  wdata : Word
deriving DecidableEq, Repr

/-- The value of `FCODE`, the cause of the fault that set `FAULT` (R25, R151). Its four names are the four
values of the 2-bit field. -/
inductive FaultCode where
  /-- 0: none -/
  | noCause
  /-- 1: `RESERVED_CMD` -/
  | reservedCmd
  /-- 2: `BUF_INDEX` -/
  | bufIndex
  /-- 3: `ROM_INDEX` -/
  | romIndex
deriving DecidableEq, Repr

/-- The contents of `BUF`: its cells at strictly rising addresses, none equal to what an unlisted address
reads as (`Memory.wf`; log 1). -/
abbrev Memory := List Host.Cell

/-- The state of the block. -/
structure State where
  /-- `VAL` (R21) -/
  val : Word
  /-- `BUF[0..8]` (R23) -/
  buf : Memory
  /-- `LEN` (R22) -/
  len : BitVec 4
  /-- `FAULT` (R24) -/
  fault : Bool
  /-- `FCODE` (R25) -/
  fcode : FaultCode
  /-- the word the latest step drove on `rdata` (R29; log 3) -/
  rdata : Word
  /-- the inputs the host presents in the coming steps, the next one first (R29, R70; log 2) -/
  port : List PortIn
  /-- how many free draws have been taken: the model's own field (log 6) -/
  draws : Nat
deriving DecidableEq, Repr

/-- Why the model stops. The spec's own faults (R151) are no stop: they are the `FAULT` and `FCODE` of the next
state (R152). -/
inductive Fault where
  /-- Raised by `memRead` and `memWrite`, which R12 defines only inside `BUF[0..8]`, for an access outside it.
  Safe: the model stops where the spec defines nothing; no command gets there (R43). -/
  | bufRange
deriving DecidableEq, Repr

/-- Why the model gives no meaning. -/
inductive Refusal where
  /-- Raised by an arm of `exec` whose instruction has no meaning yet; no arm is left so. Safe. -/
  | notModelled (mnemonic : String)
deriving DecidableEq, Repr

/-- The state right after reset (R31, R170): every piece of R20 at zero, nothing presented yet. `rdata` is draw
number 0, because R170 leaves it open (log 8); the next draw is number 1 (log 6). -/
def State.reset : State where
  val := 0#64
  buf := []
  len := 0#4
  fault := false
  fcode := .noCause
  rdata := Config.rdataIdle 0
  port := []
  draws := 1

end Sys2Proof.Machine
end

