-- ==== Sys2Proof/Machine/Ops.lean ====
section
/-! DEFINITION. The named operations over `BUF` and the ports: reading and writing bytes (00_scope.md R12),
driving `rdata`, raising a fault (60_exceptions.md R152), the halted, idle and reset steps, and the two writes
the codecs share. -/

namespace Sys2Proof.Machine

/-! ### The cells of `BUF` -/

/-- The byte at address `a`: its first listed cell, or what an unlisted address reads as. -/
def Memory.byte : Memory → Nat → Byte
  | [], _ => Config.unlistedByte
  | (a', v) :: m, a => if a' = a then v else Memory.byte m a

/-- The cell that lists `v` at `a`, if `v` is to be listed at all. -/
def Memory.cell (a : Nat) (v : Byte) : Option Host.Cell :=
  if v = Config.unlistedByte then none else some (a, v)

/-- The canonical memory whose byte at each index of `BUF` is `f` of the index. -/
def Memory.ofBytes (f : Nat → Byte) : Memory :=
  (List.range Config.bufSize).filterMap fun a => Memory.cell a (f a)

/-- The canonical form (log 1): addresses strictly rising and inside `BUF`, no cell equal to what an unlisted
address reads as. -/
abbrev Memory.wf (m : Memory) : Prop :=
  (m.map Prod.fst).Pairwise (· < ·) ∧
    ∀ c ∈ m, c.1 < Config.bufSize ∧ c.2 ≠ Config.unlistedByte

/-- `BUF` with the bytes `bs` at the indices from `i` up. -/
def Memory.put (m : Memory) (i : Nat) (bs : List Byte) : Memory :=
  Memory.ofBytes fun a =>
    if i ≤ a ∧ a < i + bs.length then bs.getD (a - i) Config.unlistedByte else m.byte a

/-- `MemRead(i, n)` (R12): the `n` bytes from index `i`, defined only for `i + n ≤ 9`. -/
def memRead (m : Memory) (i n : Nat) : Option (List Byte) :=
  if i + n ≤ Config.bufSize then some ((List.range n).map fun j => m.byte (i + j)) else none

/-- `MemWrite(i, n, bytes)` (R12), `n` the number of bytes, defined only for `i + n ≤ 9`. -/
def memWrite (m : Memory) (i : Nat) (bs : List Byte) : Option Memory :=
  if i + bs.length ≤ Config.bufSize then some (m.put i bs) else none

/-- What a step answers. -/
abbrev Result := Host.Outcome State Fault Refusal

/-- Goes on with the result of a `BUF` access; an access outside `BUF` stops the model. -/
def withBuf {α : Type} (access : Option α) (go : α → Result) : Result :=
  match access with
  | some x => go x
  | none => .fault .bufRange

/-! ### The read-data port -/

/-- `rdata <- v` (R12). -/
def drive (v : Word) (s : State) : State := { s with rdata := v }

/-- `rdata <- any`: a fresh draw (R32, U2). -/
def driveAny (s : State) : State :=
  { s with rdata := Config.rdataIdle s.draws, draws := s.draws + 1 }

/-! ### Faults, idle steps and reset -/

/-- `raise Fault(code)`, fault entry (R152): `FAULT` and `FCODE` are written, `rdata` is open, nothing else
changes and control goes nowhere. -/
def raiseFault (code : FaultCode) (s : State) : State :=
  driveAny { s with fault := true, fcode := code }

/-- A step that executes nothing: idle (R184), or halted under any command but `RDSTAT` (R153). -/
def noEffect (s : State) : State := driveAny s

/-- The reset step (R170), the only way out of the halted state (R154). The host's later inputs and the count of
draws are no state of the block and go on. -/
def resetStep (s : State) : State :=
  driveAny { State.reset with port := s.port, draws := s.draws }

/-- A command's own effect, which it has only while the block is not halted (R153). -/
def whenRunning (s : State) (effect : Result) : Result :=
  if s.fault then .next (noEffect s) else effect

/-! ### The writes the codecs share -/

/-- The tail bytes of the pack of draw number `d`, for the indices from `lo` to below `hi` (U1). -/
def tailBytes (d lo hi : Nat) : List Byte :=
  (List.range (hi - lo)).map fun j => Config.tailDraw d (lo + j)

/-- The writes of a pack (R96, R117): the encoding from `BUF[0]`, draws in the rest below `top`, its length to
`LEN`. -/
def storeEncoding (top : Nat) (encoding : List Byte) (s : State) : Result :=
  withBuf (memWrite s.buf 0 encoding) fun m =>
    withBuf (memWrite m encoding.length (tailBytes s.draws encoding.length top)) fun m' =>
      .next (driveAny { s with buf := m', len := BitVec.ofNat 4 encoding.length })

/-- The writes of an unpack (R98, R119), given the payload length of a bitmap and the decoder. -/
def loadDecoded (payloadLen : Byte → Nat) (dec : Byte → List Byte → Word) (s : State) : Result :=
  withBuf (memRead s.buf 1 (payloadLen (s.buf.byte 0))) fun payload =>
    .next (driveAny
      { s with
        val := dec (s.buf.byte 0) payload
        len := BitVec.ofNat 4 (1 + payloadLen (s.buf.byte 0)) })

/-- The write of a length command (R99, R120). -/
def storeLength (payloadLen : Byte → Nat) (s : State) : Result :=
  .next (driveAny { s with len := BitVec.ofNat 4 (1 + payloadLen (s.buf.byte 0)) })

end Sys2Proof.Machine
end

