-- ==== Sys2Proof/Syntax.lean ====
section
/-! DEFINITION. The 14 commands of 30_encoding.md R63, with the operands R61 and R62 give them: the `idx`
field and the lanes of `wdata` that the command uses (log 11). -/

namespace Sys2Proof

/-- One constructor per row of spec/opcode_table.json. -/
inductive Instr where
  /-- `NOP` (R130) -/
  | nop
  /-- `LDVAL #imm64` (R131): `imm` is `wdata[63:0]`. -/
  | ldval (imm : Word)
  /-- `RDVAL` (R132) -/
  | rdval
  /-- `LDBUF i, #imm8` (R133): `idx` is `cmd[3:0]`, `imm` is `wdata[7:0]`. -/
  | ldbuf (idx : Nibble) (imm : Byte)
  /-- `RDBUF i` (R134): `idx` is `cmd[3:0]`. -/
  | rdbuf (idx : Nibble)
  /-- `RDLEN` (R135) -/
  | rdlen
  /-- `RDROM #imm8` (R86): `row` is `wdata[7:0]`. -/
  | rdrom (row : Byte)
  /-- `RDSTAT` (R136) -/
  | rdstat
  /-- `PACK64` (R96) -/
  | pack64
  /-- `UNPACK64` (R98) -/
  | unpack64
  /-- `PLEN64` (R99) -/
  | plen64
  /-- `PACK32` (R117) -/
  | pack32
  /-- `UNPACK32` (R119) -/
  | unpack32
  /-- `PLEN32` (R120) -/
  | plen32
deriving DecidableEq, Repr

end Sys2Proof
end

