-- ==== Sys2Proof/WellFormed.lean ====
section
/-! DEFINITION. Which instructions have legal operands (30_encoding.md R62, 40_shift_table.md R86). An
instruction that fails a check still decodes and executes: its effect is the fault R151 names. -/

namespace Sys2Proof

/-- The `idx` of `LDBUF` and `RDBUF` is legal in 0..8 (R62). -/
def legalBufIndex (idx : Nibble) : Bool := decide (idx.toNat < Config.bufSize)

/-- The row of `RDROM` is legal in 1..254 (R86). -/
def legalRomIndex (row : Byte) : Bool := row != 0x00#8 && row != 0xFF#8

/-- The operands are all legal. -/
def Instr.wellFormed : Instr → Bool
  | .nop => true
  | .ldval _ => true
  | .rdval => true
  | .ldbuf idx _ => legalBufIndex idx
  | .rdbuf idx => legalBufIndex idx
  | .rdlen => true
  | .rdrom row => legalRomIndex row
  | .rdstat => true
  | .pack64 => true
  | .unpack64 => true
  | .plen64 => true
  | .pack32 => true
  | .unpack32 => true
  | .plen32 => true

end Sys2Proof
end

