-- ==== Sys2Proof/Machine/Operands.lean ====
section
/-! DEFINITION. The operand forms of the block, all of them (43_host_access.md R137): the immediate index of
`LDBUF` and `RDBUF`, the ROM index of `RDROM`, each with the operand check that precedes the command
(60_exceptions.md R153 step 5, R155), and the fixed operands of the codecs. -/

namespace Sys2Proof.Machine

/-- The immediate index (R62, R133, R134): `i` in 0..8 is used as it stands, 9..15 raises `BUF_INDEX`. -/
def withBufIndex (idx : Nibble) (s : State) (go : Nat → Result) : Result :=
  if legalBufIndex idx then go idx.toNat else .next (raiseFault .bufIndex s)

/-- The ROM index (R86): 1..254 is used as it stands, 0 and 255 raise `ROM_INDEX`. -/
def withRomIndex (row : Byte) (s : State) (go : Byte → Result) : Result :=
  if legalRomIndex row then go row else .next (raiseFault .romIndex s)

/-- The operand of `PACK64`: `VAL[63:0]` (R96). -/
def packOperand64 (s : State) : Word := s.val

/-- The operand of `PACK32`: `VAL[31:0]`; the upper half is ignored (R117). -/
def packOperand32 (s : State) : Word32 := s.val.setWidth 32

end Sys2Proof.Machine
end

