-- ==== Sys2Proof/Machine/ShiftTable.lean ====
section
/-! DEFINITION. The shift table, its ROM and `RDROM` (40_shift_table.md). The ROM is a constant (R87, R172): a
definition, which no command and no reset can change. -/

namespace Sys2Proof.Machine

/-- `POS(b)`: the groups whose bit `7−k` of `b` is 1, in ascending order (R80). -/
def positions (b : Byte) : List Nat :=
  (List.range Config.nGroups).filter fun k => b.getLsbD (7 - k)

/-- A row of the table: the record `(Count, pos)` of R82. -/
structure RomRow where
  count : Nat
  pos : List Nat
deriving DecidableEq, Repr

/-- The pair `(COUNT(b), POS(b))` (R81, R82), defined for every `b`. -/
def tableEntry (b : Byte) : RomRow := ⟨(positions b).length, positions b⟩

/-- `ROM[b]`: a row for `b` in 1..254 (R82), none for 0 and 255 (R85). -/
def rom (b : Byte) : Option RomRow :=
  if legalRomIndex b then some (tableEntry b) else none

/-- The 24-bit word of a row (R84), by the loop of R86: the count in bits 2:0, position `i` in bits
`3i+5 : 3i+3`, unused fields 0. -/
def romWord (row : RomRow) : BitVec 24 :=
  row.pos.zipIdx.foldl (fun w p => w ||| (BitVec.ofNat 24 p.1 <<< (3 * p.2 + 3)))
    (BitVec.ofNat 24 row.count)

/-- `RDROM` (R86). -/
def execRdrom (row : Byte) (s : State) : Result :=
  whenRunning s (withRomIndex row s fun b =>
    .next (drive ((romWord (tableEntry b)).setWidth 64) s))

end Sys2Proof.Machine
end

