-- ==== Sys2Proof/Machine/Codec32.lean ====
section
/-! DEFINITION. The 32-bit codec `VL32` (42_codec32.md): the encoder, its loop form, the decoder, and the
commands `PACK32`, `UNPACK32`, `PLEN32`. -/

namespace Sys2Proof.Machine

/-- `BM32(x)` (R110). -/
def bitmap32 (x : Word32) : Byte := bitmapOf fun k => nibGroup x k != 0#4

/-- `NIB32(x)` (R111). -/
def nibbles32 (x : Word32) : List Nibble := (positions (bitmap32 x)).map (nibGroup x)

/-- Two nibbles per byte, the earlier in the low half (R45, R112); the pad of an odd count is 0 (R115, log 9). -/
def packNibbles : List Nibble → List Byte
  | [] => []
  | [low] => [0#4 ++ low]
  | low :: high :: rest => (high ++ low) :: packNibbles rest

/-- `PAY32(x)` (R112). -/
def payload32 (x : Word32) : List Byte := packNibbles (nibbles32 x)

/-- `ENC32(x)` (R113). -/
def encode32 (x : Word32) : List Byte := bitmap32 x :: payload32 x

/-- `LEN32(x)` (R113). -/
def encodedLen32 (x : Word32) : Nat := 1 + ceilHalf (popcount (bitmap32 x))

/-- The rounds `k, …, 7` of the encoder's loop (R114), with `fuel = 8 − k` rounds left, on the remaining value
`r`, the bitmap, the nibble accumulator and the count so far. Group 7, the last, is emitted unconditionally. -/
def encodeRounds32 : Nat → Word32 → Byte → Word32 → Nat → Byte × Word32 × Nat
  | 0, _, b, acc, c => (b, acc, c)
  | 1, r, b, acc, c => (b ||| 0x01#8, acc ||| ((r &&& 0xF#32) <<< (4 * c)), c + 1)
  | fuel + 2, r, b, acc, c =>
    let k := 7 - (fuel + 1)
    let zero : Bool := r &&& 0xF#32 == 0#32
    let b' := if zero then b else b ||| (1#8 <<< (7 - k))
    let acc' := if zero then acc else acc ||| ((r &&& 0xF#32) <<< (4 * c))
    let c' := if zero then c else c + 1
    if r >>> 4 = 0#32 then (b', acc', c') else encodeRounds32 (fuel + 1) (r >>> 4) b' acc' c'

/-- `ENC32_loop(x)` (R114), the source's own form of the encoder. -/
def encodeLoop32 (x : Word32) : List Byte :=
  if x = 0#32 then [0x00#8]
  else
    let r := encodeRounds32 Config.nGroups x 0#8 0#32 0
    r.1 :: (List.range (ceilHalf r.2.2)).map fun j => (r.2.1 >>> (8 * j)).setWidth 8

/-- `NIBOF(p, i)` (R118): the low half of byte `i >> 1` for even `i`, the high half for odd `i`. -/
def nibbleOf (p : List Byte) (i : Nat) : Nibble :=
  (p.getD (i >>> 1) 0#8 >>> (4 * (i % 2))).setWidth 4

/-- The OR of `NIBOF(p, i) << (4 × pos[i])` over the positions (R118). -/
def scatter32 (pos : List Nat) (p : List Byte) : Word32 :=
  pos.zipIdx.foldl (fun v e => v ||| ((nibbleOf p e.2).setWidth 32 <<< (4 * e.1))) 0#32

/-- `DEC32(b, p)` (R118): the table where it has a row, 0 for `b = 0x00`, and for `b = 0xFF` the wired constant
`(8, [0, …, 7])` under the same general rule (R85, R116; 90_conflicts.md C1). -/
def decode32 (b : Byte) (p : List Byte) : Word32 :=
  match rom b with
  | some row => scatter32 row.pos p
  | none => if b = 0x00#8 then 0#32 else scatter32 [0, 1, 2, 3, 4, 5, 6, 7] p

/-- `PACK32` (R117). -/
def execPack32 (s : State) : Result :=
  whenRunning s (storeEncoding Config.maxLen32 (encode32 (packOperand32 s)) s)

/-- `UNPACK32` (R119): `VAL[63:32]` becomes 0. -/
def execUnpack32 (s : State) : Result :=
  whenRunning s (loadDecoded payloadLen32 (fun b p => (decode32 b p).setWidth 64) s)

/-- `PLEN32` (R120). -/
def execPlen32 (s : State) : Result :=
  whenRunning s (storeLength payloadLen32 s)

end Sys2Proof.Machine
end

