-- ==== Sys2Proof/Machine/Codec64.lean ====
section
/-! DEFINITION. The 64-bit codec `VL64` (41_codec64.md): the encoder, its loop form, the decoder, and the
commands `PACK64`, `UNPACK64`, `PLEN64`. -/

namespace Sys2Proof.Machine

/-- `BM64(x)` (R90). -/
def bitmap64 (x : Word) : Byte := bitmapOf fun k => byteGroup x k != 0#8

/-- `PAY64(x)` (R91). -/
def payload64 (x : Word) : List Byte := (positions (bitmap64 x)).map (byteGroup x)

/-- `ENC64(x)` (R92). -/
def encode64 (x : Word) : List Byte := bitmap64 x :: payload64 x

/-- `LEN64(x)` (R92). -/
def encodedLen64 (x : Word) : Nat := 1 + popcount (bitmap64 x)

/-- The rounds `k, …, 7` of the encoder's loop (R93), with `fuel = 8 − k` rounds left, on the remaining value
`r`: the bitmap bits they set and the payload they append. Group 7, the last, is emitted unconditionally. -/
def encodeRounds64 : Nat → Word → Byte → List Byte → Byte × List Byte
  | 0, _, b, pay => (b, pay)
  | 1, r, b, pay => (b ||| 0x01#8, pay ++ [r.setWidth 8])
  | fuel + 2, r, b, pay =>
    let k := 7 - (fuel + 1)
    let b' := if r.setWidth 8 = 0#8 then b else b ||| (1#8 <<< (7 - k))
    let pay' := if r.setWidth 8 = 0#8 then pay else pay ++ [r.setWidth 8]
    if r >>> 8 = 0#64 then (b', pay') else encodeRounds64 (fuel + 1) (r >>> 8) b' pay'

/-- `ENC64_loop(x)` (R93), the source's own form of the encoder. -/
def encodeLoop64 (x : Word) : List Byte :=
  if x = 0#64 then [0x00#8]
  else
    let r := encodeRounds64 Config.nGroups x 0#8 []
    r.1 :: r.2

/-- `Σ p[i] << (8 × pos[i])` over the positions, computed exactly (R97, R10). -/
def scatter64 (pos : List Nat) (p : List Byte) : Nat :=
  ((pos.zip p).map fun e => e.2.toNat <<< (8 * e.1)).sum

/-- `DEC64(b, p)` (R97): the table where it has a row, else the two fast paths, `b = 0x00` and `b = 0xFF`. -/
def decode64 (b : Byte) (p : List Byte) : Word :=
  match rom b with
  | some row => BitVec.ofNat 64 (scatter64 row.pos p)
  | none =>
    if b = 0x00#8 then 0#64
    else BitVec.ofNat 64 (scatter64 [0, 1, 2, 3, 4, 5, 6, 7] p)

/-- `PACK64` (R96). -/
def execPack64 (s : State) : Result :=
  whenRunning s (storeEncoding Config.bufSize (encode64 (packOperand64 s)) s)

/-- `UNPACK64` (R98). -/
def execUnpack64 (s : State) : Result :=
  whenRunning s (loadDecoded payloadLen64 decode64 s)

/-- `PLEN64` (R99). -/
def execPlen64 (s : State) : Result :=
  whenRunning s (storeLength payloadLen64 s)

end Sys2Proof.Machine
end

