-- ==== Sys2Proof/Machine/Flags.lean ====
section
/-! DEFINITION. The only flags of the block are `FAULT` and `FCODE`; no command sets a flag by its arithmetic
(10_state.md R27). What there is to compute is their encoding and the status word of `RDSTAT`. -/

namespace Sys2Proof.Machine

/-- The 2-bit value of `FCODE` (R25, R151). -/
def faultCodeBits : FaultCode → BitVec 2
  | .noCause => 0#2
  | .reservedCmd => 1#2
  | .bufIndex => 2#2
  | .romIndex => 3#2

/-- `zext_64({FCODE, FAULT})` (R136): bit 0 is `FAULT`, bits 2:1 are `FCODE`. -/
def statusWord (s : State) : Word :=
  (faultCodeBits s.fcode ++ BitVec.ofBool s.fault).setWidth 64

end Sys2Proof.Machine
end

