-- ==== Sys2Proof/Machine/HostAccess.lean ====
section
/-! DEFINITION. The host access commands (43_host_access.md): `NOP`, `LDVAL`, `RDVAL`, `LDBUF`, `RDBUF`,
`RDLEN`, `RDSTAT`. -/

namespace Sys2Proof.Machine

/-- `NOP` (R130). -/
def execNop (s : State) : Result :=
  whenRunning s (.next (driveAny s))

/-- `LDVAL` (R131). -/
def execLdval (imm : Word) (s : State) : Result :=
  whenRunning s (.next (driveAny { s with val := imm }))

/-- `RDVAL` (R132). -/
def execRdval (s : State) : Result :=
  whenRunning s (.next (drive s.val s))

/-- `LDBUF i` (R133). -/
def execLdbuf (idx : Nibble) (imm : Byte) (s : State) : Result :=
  whenRunning s (withBufIndex idx s fun i =>
    withBuf (memWrite s.buf i [imm]) fun m => .next (driveAny { s with buf := m }))

/-- `RDBUF i` (R134). -/
def execRdbuf (idx : Nibble) (s : State) : Result :=
  whenRunning s (withBufIndex idx s fun i =>
    withBuf (memRead s.buf i 1) fun bytes =>
      .next (drive ((bytes.getD 0 Config.unlistedByte).setWidth 64) s))

/-- `RDLEN` (R135). -/
def execRdlen (s : State) : Result :=
  whenRunning s (.next (drive (s.len.setWidth 64) s))

/-- `RDSTAT` (R136): the only command that executes for `FAULT = 0` and for `FAULT = 1`. -/
def execRdstat (s : State) : Result :=
  .next (drive (statusWord s) s)

end Sys2Proof.Machine
end

