-- ==== Sys2Proof/Machine/Dispatch.lean ====
section
/-! DEFINITION. One arm per command: the meaning of each (30_encoding.md R63). -/

namespace Sys2Proof.Machine

def exec (i : Instr) (s : State) : Host.Outcome State Fault Refusal :=
  match i with
  | .nop => Sys2Proof.Machine.execNop s
  | .ldval imm => Sys2Proof.Machine.execLdval imm s
  | .rdval => Sys2Proof.Machine.execRdval s
  | .ldbuf idx imm => Sys2Proof.Machine.execLdbuf idx imm s
  | .rdbuf idx => Sys2Proof.Machine.execRdbuf idx s
  | .rdlen => Sys2Proof.Machine.execRdlen s
  | .rdrom row => Sys2Proof.Machine.execRdrom row s
  | .rdstat => Sys2Proof.Machine.execRdstat s
  | .pack64 => Sys2Proof.Machine.execPack64 s
  | .unpack64 => Sys2Proof.Machine.execUnpack64 s
  | .plen64 => Sys2Proof.Machine.execPlen64 s
  | .pack32 => Sys2Proof.Machine.execPack32 s
  | .unpack32 => Sys2Proof.Machine.execUnpack32 s
  | .plen32 => Sys2Proof.Machine.execPlen32 s

end Sys2Proof.Machine
end

