-- ==== Sys2Proof/Decode.lean ====
section
/-! DEFINITION. The decoder and the encoder of 30_encoding.md: a command is the pair of one 8-bit word `cmd`
and the 64-bit `wdata` presented with it (R60, R61, R68). -/

namespace Sys2Proof

/-- `op = cmd[7:4]` (R60). -/
def opField (cmd : Byte) : Nibble := cmd.extractLsb' 4 4

/-- `idx = cmd[3:0]` (R60). -/
def idxField (cmd : Byte) : Nibble := cmd.extractLsb' 0 4

/-- One row of the opcode map (R63): a word `w` selects the row when `w & mask = pattern`. -/
structure OpRow where
  pattern : Byte
  mask : Byte
  build : Byte → Word → Instr

/-- The complete opcode map, in its order (R63). The operand lanes of `wdata` are those of R61. -/
def opcodeMap : List OpRow :=
  [ ⟨0x00#8, 0xFF#8, fun _ _ => .nop⟩,
    ⟨0x10#8, 0xFF#8, fun _ wdata => .ldval wdata⟩,
    ⟨0x20#8, 0xFF#8, fun _ _ => .rdval⟩,
    ⟨0x30#8, 0xF0#8, fun cmd wdata => .ldbuf (idxField cmd) (wdata.setWidth 8)⟩,
    ⟨0x40#8, 0xF0#8, fun cmd _ => .rdbuf (idxField cmd)⟩,
    ⟨0x50#8, 0xFF#8, fun _ _ => .rdlen⟩,
    ⟨0x60#8, 0xFF#8, fun _ wdata => .rdrom (wdata.setWidth 8)⟩,
    ⟨0x70#8, 0xFF#8, fun _ _ => .rdstat⟩,
    ⟨0x80#8, 0xFF#8, fun _ _ => .pack64⟩,
    ⟨0x90#8, 0xFF#8, fun _ _ => .unpack64⟩,
    ⟨0xA0#8, 0xFF#8, fun _ _ => .plen64⟩,
    ⟨0xC0#8, 0xFF#8, fun _ _ => .pack32⟩,
    ⟨0xD0#8, 0xFF#8, fun _ _ => .unpack32⟩,
    ⟨0xE0#8, 0xFF#8, fun _ _ => .plen32⟩ ]

/-- The row selects the command word (R63). -/
def OpRow.selects (row : OpRow) (cmd : Byte) : Bool := cmd &&& row.mask == row.pattern

/-- Why a command word is reserved (R65). -/
inductive DecodeError where
  /-- (a) `op` is `0xB` or `0xF`. -/
  | reservedOp (op : Nibble)
  /-- (b) a command without an index operand has `idx ≠ 0`. -/
  | reservedIdx (op idx : Nibble)
deriving DecidableEq, Repr

/-- The name under which a word that no row selects is rejected (R65). -/
def rejection (cmd : Byte) : DecodeError :=
  if opField cmd = 0xB#4 ∨ opField cmd = 0xF#4 then .reservedOp (opField cmd)
  else .reservedIdx (opField cmd) (idxField cmd)

/-- The decoder: total on every command word and data word (R66). -/
def decode (cmd : Byte) (wdata : Word) : Except DecodeError Instr :=
  match opcodeMap.find? (fun row => row.selects cmd) with
  | some row => .ok (row.build cmd wdata)
  | none => .error (rejection cmd)

/-- The command pair of an instruction (R63); the bits of `wdata` it ignores are 0 (R68). -/
def encode : Instr → Byte × Word
  | .nop => (0x00#8, 0#64)
  | .ldval imm => (0x10#8, imm)
  | .rdval => (0x20#8, 0#64)
  | .ldbuf idx imm => (0x3#4 ++ idx, imm.setWidth 64)
  | .rdbuf idx => (0x4#4 ++ idx, 0#64)
  | .rdlen => (0x50#8, 0#64)
  | .rdrom row => (0x60#8, row.setWidth 64)
  | .rdstat => (0x70#8, 0#64)
  | .pack64 => (0x80#8, 0#64)
  | .unpack64 => (0x90#8, 0#64)
  | .plen64 => (0xA0#8, 0#64)
  | .pack32 => (0xC0#8, 0#64)
  | .unpack32 => (0xD0#8, 0#64)
  | .plen32 => (0xE0#8, 0#64)

/-- The command word in the bits of `w` below `nbits` (the first byte, R60). -/
def tableCmd (nbits w : Nat) : Byte := BitVec.ofNat 8 (w % 2 ^ nbits)

/-- The data word in the bits of `w` below `nbits` that stand above the command word. -/
def tableWdata (nbits w : Nat) : Word := BitVec.ofNat 64 (w % 2 ^ nbits / 2 ^ 8)

/-- The decoder's reading of the `nbits` bits `w` of an opcode-table row; every bit above them is 0. -/
def decodeTableWord (nbits w : Nat) : Option Instr :=
  match decode (tableCmd nbits w) (tableWdata nbits w) with
  | .ok i => some i
  | .error _ => none

end Sys2Proof
end

