-- ==== Sys2Proof/Machine/Port.lean ====
section
/-! DEFINITION. The command port: what the host presents in a step (10_state.md R29) and what the block does
about it, in the check order of 60_exceptions.md R153. -/

namespace Sys2Proof.Machine

/-- What the block does in a step. -/
inductive Action where
  /-- `rst = 1` (R170) -/
  | reset
  /-- no command is presented (R184) -/
  | idle
  /-- a command other than `RDSTAT` while `FAULT = 1` (R153) -/
  | halted
  /-- a reserved command word (R65) -/
  | reserved
  /-- the command executes -/
  | run (i : Instr)
deriving DecidableEq, Repr

/-- The input of a step in which the host drives nothing: `rst = 0`, `cmd_valid = 0` (R29, R184). -/
def idleInput : PortIn := ⟨false, false, 0x00#8, 0#64⟩

/-- The input of a step in which the host presents a command (R29, R70). -/
def commandInput (cmd : Byte) (wdata : Word) : PortIn := ⟨false, true, cmd, wdata⟩

/-- The inputs of this step: the first the host has lined up; nothing once the list is exhausted (log 2). -/
def presented (s : State) : PortIn := s.port.headD idleInput

/-- The inputs of this step are taken off the port. -/
def takeInput (s : State) : State := { s with port := s.port.tail }

/-- The check order of every step (R153): `rst`, `cmd_valid`, `FAULT`, decode. -/
def actionOf (p : PortIn) (halted : Bool) : Action :=
  if p.rst then .reset
  else if !p.cmdValid then .idle
  else if halted && p.cmd != 0x70#8 then .halted
  else
    match decode p.cmd p.wdata with
    | .ok i => .run i
    | .error _ => .reserved

end Sys2Proof.Machine
end

