-- ==== Sys2Proof/Machine/Step.lean ====
section
/-! DEFINITION. One step of the block (10_state.md R29, 60_exceptions.md R153). -/

namespace Sys2Proof.Machine

/-- One step: the inputs presented are taken, and the block resets, idles, stays halted, faults on a reserved
word, or executes the command. -/
def step (s : State) : Host.Outcome State Fault Refusal :=
  match actionOf (presented s) s.fault with
  | .reset => .next (resetStep (takeInput s))
  | .idle => .next (noEffect (takeInput s))
  | .halted => .next (noEffect (takeInput s))
  | .reserved => .next (raiseFault .reservedCmd (takeInput s))
  | .run i => exec i (takeInput s)

/-- `s` with the host presenting, in the next step, the command in the `nbits` bits `w` of an opcode-table row
(log 12). -/
def State.withFetchWord (s : State) (nbits w : Nat) : State :=
  { s with port := commandInput (tableCmd nbits w) (tableWdata nbits w) :: s.port }

end Sys2Proof.Machine
end

