-- ==== Sys2Proof/Machine/Program.lean ====
section
/-! DEFINITION. Programs (30_encoding.md R68 to R70): assembler lines and their fixed expansions, and the run of
a finite list of command pairs with its result. -/

namespace Sys2Proof.Machine

/-- A program is a finite list of `(cmd, wdata)` pairs (R70). -/
abbrev Program := List (Byte × Word)

/-- The lines of the assembler as data (R68, R69; log 13). -/
inductive AsmLine where
  /-- a command with its operands -/
  | instr (i : Instr)
  /-- `.cmd w, #imm64`: any command word as it stands -/
  | raw (cmd : Byte) (wdata : Word)
  /-- `LDWIRE b0, …` with 1 to 9 bytes -/
  | ldwire (bytes : List Byte)
  /-- `RDWIRE n` with `n` in 1..9 -/
  | rdwire (n : Nat)
deriving DecidableEq, Repr

/-- `LDWIRE` and `RDWIRE` take 1 to 9 bytes (R69). -/
def legalWireCount (n : Nat) : Bool := decide (1 ≤ n ∧ n ≤ Config.bufSize)

/-- The command pairs of a line (R68, R69); none where a pseudo-instruction's count is outside 1..9. -/
def assembleLine : AsmLine → Option Program
  | .instr i => some [encode i]
  | .raw cmd wdata => some [(cmd, wdata)]
  | .ldwire bytes =>
    if legalWireCount bytes.length then
      some (bytes.zipIdx.map fun e => encode (.ldbuf (BitVec.ofNat 4 e.2) e.1))
    else none
  | .rdwire n =>
    if legalWireCount n then some ((List.range n).map fun i => encode (.rdbuf (BitVec.ofNat 4 i)))
    else none

/-- The program of a list of lines. -/
def assemble : List AsmLine → Option Program
  | [] => some []
  | line :: lines =>
    match assembleLine line, assemble lines with
    | some p, some q => some (p ++ q)
    | _, _ => none

/-- The host presents the program, one command per step (R70). -/
def present (p : Program) (s : State) : State :=
  { s with port := p.map fun c => commandInput c.1 c.2 }

/-- The command word is a read command: its row drives `rdata` with data (R32). -/
def isReadWord (cmd : Byte) : Bool :=
  match decode cmd 0#64 with
  | .ok .rdval => true
  | .ok (.rdbuf _) => true
  | .ok .rdlen => true
  | .ok (.rdrom _) => true
  | .ok .rdstat => true
  | _ => false

/-- The result of a program from a state (R70): the final state and the `rdata` values of its read commands, in
order. -/
def runProgram : Program → State → Host.Outcome (State × List Word) Fault Refusal
  | [], s => .next (s, [])
  | c :: p, s =>
    match step (present [c] s) with
    | .next t =>
      match runProgram p t with
      | .next r => .next (r.1, if isReadWord c.1 then t.rdata :: r.2 else r.2)
      | .fault f => .fault f
      | .refused f => .refused f
    | .fault f => .fault f
    | .refused f => .refused f

end Sys2Proof.Machine
end

