-- ==== Sys2Proof/Safety.lean ====
section
/-! DEFINITION. What the claims mean by a good state and a good run: the invariant of the block's state
(10_state.md R22, R25; log 1) and the end of a run (70_reset_and_hazards.md R182). -/

namespace Sys2Proof.Machine

/-- What every step keeps: `BUF` in canonical form, `LEN` in 0..9 (R22), `FAULT = 0` exactly when `FCODE = 0`
(R25). -/
structure State.Inv (s : State) : Prop where
  bufCanonical : s.buf.wf
  lenRange : s.len.toNat ≤ 9
  faultCause : s.fault = false ↔ s.fcode = .noCause

/-- A run is finished and good when the host's list is exhausted and `FAULT = 0` (R182). -/
def State.finishedGood (s : State) : Bool := s.port.isEmpty && !s.fault

/-- A run has gone wrong when `FAULT = 1` (R182). -/
def State.goneWrong (s : State) : Bool := s.fault

/-- The command is one of the six codec commands, `op[3] = 1` (R64). -/
def isCodec : Instr → Bool
  | .pack64 | .unpack64 | .plen64 | .pack32 | .unpack32 | .plen32 => true
  | .nop | .ldval _ | .rdval | .ldbuf _ _ | .rdbuf _ | .rdlen | .rdrom _ | .rdstat => false

/-- The reserved command words, as R65 lists them: (a) `op` is `0xB` or `0xF`; (b) `op` is no command with an
index operand and `idx ≠ 0`. -/
def reservedWord (cmd : Byte) : Bool :=
  (opField cmd == 0xB#4 || opField cmd == 0xF#4) ||
    (opField cmd != 0x3#4 && opField cmd != 0x4#4 && idxField cmd != 0#4)

/-- The words of `LDBUF` and `RDBUF` with an illegal index, 9..15 (R65, R62). -/
def illegalIndexWord (cmd : Byte) : Bool :=
  (opField cmd == 0x3#4 || opField cmd == 0x4#4) && decide (9 ≤ (idxField cmd).toNat)

/-- The cause that a command presented to a running block raises, by the table of R151. -/
def causeOf (cmd : Byte) (wdata : Word) : FaultCode :=
  if reservedWord cmd then .reservedCmd
  else if illegalIndexWord cmd then .bufIndex
  else if cmd = 0x60#8 ∧ (wdata.setWidth 8 = 0x00#8 ∨ wdata.setWidth 8 = 0xFF#8) then .romIndex
  else .noCause

/-- The bits of `wdata` that a command uses (R61): all for `LDVAL`, bits 7:0 for `LDBUF` and `RDROM`, none for
every other command. -/
def dataLanes : Instr → Word
  | .ldval _ => BitVec.allOnes 64
  | .ldbuf _ _ | .rdrom _ => 0xFF#64
  | .nop | .rdval | .rdbuf _ | .rdlen | .rdstat | .pack64 | .unpack64 | .plen64
  | .pack32 | .unpack32 | .plen32 => 0#64

end Sys2Proof.Machine
end

