-- ==== Sys2Proof/Certificates/Slice0/Obligations.lean ====
section
/-! DEFINITION. The statements for the provers, from the numbered rules of spec/. A command is presented to the
block as the first entry of `port`; `Config.rdataIdle s.draws` is the open `rdata` of a step (R32, logs 4 and 6). -/

open Sys2Proof Sys2Proof.Machine

/-! ### Encoding (30_encoding.md) -/

/-- The decoder reads every instruction, with every operand, back from its encoding (R60 to R63, R68). -/
def Obligations.DecodeOfEncodeIsTheInstruction : Prop :=
  ∀ i : Instr, decode (encode i).1 (encode i).2 = .ok i

/-- A command pair that decodes is the encoding of what it decodes to: its command word is that of the opcode map
(R63), and its `wdata` is cut to the lanes the command uses (R61), so that no two command words mean the same and no
ignored bit reaches an operand. That the encoder sets the ignored bits to 0 follows the assembler (R68) and is the
MODEL's reading of what belongs to an instruction (log 11, DEDUCED). -/
def Obligations.DecodedPairIsItsEncoding : Prop :=
  ∀ (cmd : Byte) (wdata : Word) (i : Instr), decode cmd wdata = .ok i →
    encode i = (cmd, wdata &&& dataLanes i)

/-- The decoder rejects exactly the reserved words of R65, whatever `wdata` is. -/
def Obligations.DecoderRejectsExactlyReservedWords : Prop :=
  ∀ (cmd : Byte) (wdata : Word), (∃ e, decode cmd wdata = .error e) ↔ reservedWord cmd = true

/-- Every command word falls in exactly one of the classes of R65 and R63: 30 legal words, 14 with an illegal
index, 212 reserved, of 256. -/
def Obligations.CommandWordCounts : Prop :=
  let words := (List.range 256).map (BitVec.ofNat 8)
  (words.filter reservedWord).length = 212 ∧ (words.filter illegalIndexWord).length = 14 ∧
    (words.filter fun w => !reservedWord w && !illegalIndexWord w).length = 30 ∧
    ∀ w : Byte, ¬ (reservedWord w = true ∧ illegalIndexWord w = true)

/-- Words written out from R63 decode to the commands they stand for. -/
def Obligations.WordsOfTheMapDecode : Prop :=
  decode 0b00000000#8 0x1234#64 = .ok .nop ∧
  decode 0b00010000#8 0x100#64 = .ok (.ldval 0x100#64) ∧
  decode 0b00111000#8 0x1AB#64 = .ok (.ldbuf 8#4 0xAB#8) ∧
  decode 0b01001111#8 0#64 = .ok (.rdbuf 15#4) ∧
  decode 0b01100000#8 0xFFFFFFFFFFFFFF41#64 = .ok (.rdrom 0x41#8) ∧
  decode 0b10000000#8 0#64 = .ok .pack64 ∧
  decode 0b11010000#8 0#64 = .ok .unpack32

/-! ### The step -/

/-- A step that is presented a command, with the block running, executes what the command decodes to, on the state
with the input taken off the port (R29, R50, R153). -/
def Obligations.StepRunsTheDecodedCommand : Prop :=
  ∀ (s : State) (p : PortIn) (rest : List PortIn) (i : Instr), s.port = p :: rest → p.rst = false →
    p.cmdValid = true → s.fault = false → decode p.cmd p.wdata = .ok i →
    step s = exec i { s with port := rest }

/-- Reset (R170): whatever the state was, halted or not, and whatever else is presented, the state after the step is
the reset state. The host's later inputs and the count of draws are no state of the block. -/
def Obligations.ResetStepGivesTheResetState : Prop :=
  ∀ (s : State) (p : PortIn) (rest : List PortIn), s.port = p :: rest → p.rst = true →
    ∃ t, step s = .next t ∧ t.val = 0#64 ∧ memRead t.buf 0 9 = some (List.replicate 9 0x00#8) ∧
      t.len = 0#4 ∧ t.fault = false ∧ t.fcode = .noCause ∧ t.port = rest ∧
      t.rdata = Config.rdataIdle s.draws ∧ t.draws = s.draws + 1

/-- The values of R31 at reset. -/
def Obligations.ResetValues : Prop :=
  State.reset.val = 0x0000000000000000#64 ∧
    memRead State.reset.buf 0 9 = some (List.replicate 9 0x00#8) ∧
    State.reset.len = 0#4 ∧ State.reset.fault = false ∧ faultCodeBits State.reset.fcode = 0#2

/-- An idle step (R184) changes no state and leaves `rdata` open. -/
def Obligations.IdleStepChangesNoState : Prop :=
  ∀ (s : State) (p : PortIn) (rest : List PortIn), s.port = p :: rest → p.rst = false →
    p.cmdValid = false →
    step s = .next { s with
      port := rest, rdata := Config.rdataIdle s.draws, draws := s.draws + 1 }

/-- The MODEL's choice (log 2): when the host has lined up no further input, the step is an idle step. -/
def Obligations.ExhaustedHostListIsIdle : Prop :=
  ∀ s : State, s.port = [] →
    step s = .next { s with rdata := Config.rdataIdle s.draws, draws := s.draws + 1 }

/-- No step stops: the decoder is total (R66), no command leaves `BUF` (R43), a fault is a next state (R152). -/
def Obligations.EveryStepAnswersANextState : Prop :=
  ∀ s : State, ∃ t, step s = .next t

/-- Every step keeps the invariant: `LEN` in 0..9 (R22), `FAULT = 0` exactly when `FCODE = 0` (R25), and `BUF` in the
canonical form that is the MODEL's choice of how to hold it (log 1, DESIGN CHOICE). -/
def Obligations.EveryStepKeepsTheInvariant : Prop :=
  ∀ s t : State, s.Inv → step s = .next t → t.Inv

/-- The invariant holds at reset: `LEN` in 0..9 (R22) and `FAULT = 0` exactly when `FCODE = 0` (R25) of the reset values
(R31), and `BUF` in the canonical form that is the MODEL's choice of how to hold it (log 1, DESIGN CHOICE). -/
def Obligations.ResetMeetsTheInvariant : Prop := State.reset.Inv

/-! ### Faults (60_exceptions.md) -/

/-- The causes of R151: a command presented to a running block sets `FAULT` exactly under the table's conditions, and
records the table's code. -/
def Obligations.CommandsFaultExactlyByTheTable : Prop :=
  ∀ (s : State) (p : PortIn) (rest : List PortIn), s.port = p :: rest → p.rst = false →
    p.cmdValid = true → s.fault = false →
    ∃ t, step s = .next t ∧
      (causeOf p.cmd p.wdata = .noCause → t.fault = false ∧ t.fcode = s.fcode) ∧
      (causeOf p.cmd p.wdata ≠ .noCause → t.fault = true ∧ t.fcode = causeOf p.cmd p.wdata)

/-- Fault entry (R152) is precise: a step that sets `FAULT` writes `FAULT`, `FCODE` and nothing else of the block, and
leaves `rdata` open. -/
def Obligations.FaultEntryWritesNothingElse : Prop :=
  ∀ s t : State, s.fault = false → step s = .next t → t.fault = true →
    t.fcode ≠ .noCause ∧
      t = { s with
        fault := true, fcode := t.fcode, port := s.port.tail, rdata := Config.rdataIdle s.draws,
        draws := s.draws + 1 }

/-- The halted block (R153): under any command but `RDSTAT`, and in an idle step, nothing changes; `RDSTAT` drives
the status. -/
def Obligations.HaltedBlockExecutesOnlyRdstat : Prop :=
  ∀ (s : State) (p : PortIn) (rest : List PortIn), s.port = p :: rest → p.rst = false →
    s.fault = true →
    (¬ (p.cmdValid = true ∧ p.cmd = 0x70#8) →
      step s = .next { s with
        port := rest, rdata := Config.rdataIdle s.draws, draws := s.draws + 1 }) ∧
    (p.cmdValid = true → p.cmd = 0x70#8 →
      step s = .next { s with
        port := rest, rdata := (faultCodeBits s.fcode ++ 1#1).setWidth 64 })

/-- Nothing leaves the halted state but reset, which also clears `VAL`, `BUF` and `LEN`; until then the first cause
stays (R154, R153). -/
def Obligations.OnlyResetClearsFault : Prop :=
  ∀ s t : State, s.fault = true → step s = .next t →
    ((∃ p rest, s.port = p :: rest ∧ p.rst = true) ∧ t.fault = false ∧ t.fcode = .noCause ∧
      t.val = 0#64 ∧ memRead t.buf 0 9 = some (List.replicate 9 0x00#8) ∧ t.len = 0#4) ∨
    (t.fault = true ∧ t.fcode = s.fcode ∧ t.val = s.val ∧ t.buf = s.buf ∧ t.len = s.len)

/-- No codec command raises a fault, for any `VAL` and any `BUF` (R150). -/
def Obligations.CodecCommandsNeverFault : Prop :=
  ∀ (i : Instr) (s : State), isCodec i = true → s.fault = false →
    ∃ t, exec i s = .next t ∧ t.fault = false ∧ t.fcode = s.fcode

/-! ### Who writes what (10_state.md R32) -/

/-- The access matrix: each piece of state changes only under the commands that R32 lets write it, and no command
touches the host's inputs. -/
def Obligations.EachStateHasOnlyItsWriters : Prop :=
  ∀ (i : Instr) (s t : State), exec i s = .next t →
    ((∀ imm, i ≠ .ldval imm) → i ≠ .unpack64 → i ≠ .unpack32 → t.val = s.val) ∧
    ((∀ idx imm, i ≠ .ldbuf idx imm) → i ≠ .pack64 → i ≠ .pack32 →
      ∀ a, memRead t.buf a 1 = memRead s.buf a 1) ∧
    (isCodec i = false → t.len = s.len) ∧
    ((∀ idx imm, i ≠ .ldbuf idx imm) → (∀ idx, i ≠ .rdbuf idx) → (∀ row, i ≠ .rdrom row) →
      t.fault = s.fault ∧ t.fcode = s.fcode) ∧
    t.port = s.port

/-- A read command changes no state but `rdata`, and reading again returns the same value (R49). -/
def Obligations.ReadsAreIdempotent : Prop :=
  ∀ (i : Instr) (s t : State), i.wellFormed = true →
    (i = .rdval ∨ (∃ idx, i = .rdbuf idx) ∨ i = .rdlen ∨ (∃ row, i = .rdrom row) ∨ i = .rdstat) →
    s.fault = false → exec i s = .next t → t = { s with rdata := t.rdata } ∧ exec i t = .next t

/-! ### Host access commands (43_host_access.md) -/

/-- `NOP` (R130). -/
def Obligations.NopLeavesTheState : Prop :=
  (∀ wdata, decode 0x00#8 wdata = .ok .nop) ∧
  ∀ s : State, s.fault = false →
    exec .nop s = .next { s with rdata := Config.rdataIdle s.draws, draws := s.draws + 1 }

/-- `LDVAL` (R131). -/
def Obligations.LdvalLoadsVal : Prop :=
  (∀ wdata, decode 0x10#8 wdata = .ok (.ldval wdata)) ∧
  ∀ (s : State) (imm : Word), s.fault = false →
    exec (.ldval imm) s =
      .next { s with val := imm, rdata := Config.rdataIdle s.draws, draws := s.draws + 1 }

/-- `RDVAL` (R132). -/
def Obligations.RdvalDrivesVal : Prop :=
  (∀ wdata, decode 0x20#8 wdata = .ok .rdval) ∧
  ∀ s : State, s.fault = false → exec .rdval s = .next { s with rdata := s.val }

/-- `LDBUF i` (R133): for `i` in 0..8 the byte goes to `BUF[i]`, every other byte of `BUF` and every other piece of
state stays; for 9..15 it raises `BUF_INDEX`. -/
def Obligations.LdbufStoresTheByte : Prop :=
  (∀ (idx : Nibble) (wdata : Word),
    decode (0x3#4 ++ idx) wdata = .ok (.ldbuf idx (wdata.setWidth 8))) ∧
  ∀ (s : State) (idx : Nibble) (imm : Byte), s.fault = false →
    (idx.toNat ≤ 8 → ∃ t, exec (.ldbuf idx imm) s = .next t ∧
      memRead t.buf idx.toNat 1 = some [imm] ∧
      (∀ a, a ≠ idx.toNat → memRead t.buf a 1 = memRead s.buf a 1) ∧
      t = { s with buf := t.buf, rdata := Config.rdataIdle s.draws, draws := s.draws + 1 }) ∧
    (9 ≤ idx.toNat → exec (.ldbuf idx imm) s = .next { s with
      fault := true, fcode := .bufIndex, rdata := Config.rdataIdle s.draws, draws := s.draws + 1 })

/-- `RDBUF i` (R134): for `i` in 0..8 it drives the byte, zero-extended; for 9..15 it raises `BUF_INDEX`. -/
def Obligations.RdbufDrivesTheByte : Prop :=
  (∀ (idx : Nibble) (wdata : Word), decode (0x4#4 ++ idx) wdata = .ok (.rdbuf idx)) ∧
  ∀ (s : State) (idx : Nibble), s.fault = false →
    (idx.toNat ≤ 8 → ∃ b, memRead s.buf idx.toNat 1 = some [b] ∧
      exec (.rdbuf idx) s = .next { s with rdata := b.setWidth 64 }) ∧
    (9 ≤ idx.toNat → exec (.rdbuf idx) s = .next { s with
      fault := true, fcode := .bufIndex, rdata := Config.rdataIdle s.draws, draws := s.draws + 1 })

/-- `RDLEN` (R135). -/
def Obligations.RdlenDrivesLen : Prop :=
  (∀ wdata, decode 0x50#8 wdata = .ok .rdlen) ∧
  ∀ s : State, s.fault = false → exec .rdlen s = .next { s with rdata := s.len.setWidth 64 }

/-- `RDSTAT` (R136): it executes in every state, drives `FAULT` in bit 0 and `FCODE` in bits 2:1, and where `FAULT`
and `FCODE` agree as R25 says, its results are 0, 3, 5 and 7. -/
def Obligations.RdstatDrivesTheStatus : Prop :=
  (∀ wdata, decode 0x70#8 wdata = .ok .rdstat) ∧
  ∀ s : State, ∃ v : Word, exec .rdstat s = .next { s with rdata := v } ∧
    v.getLsbD 0 = s.fault ∧ v.extractLsb' 1 2 = faultCodeBits s.fcode ∧ v.extractLsb' 3 61 = 0#61 ∧
    ((s.fault = false ↔ s.fcode = .noCause) → v = 0#64 ∨ v = 3#64 ∨ v = 5#64 ∨ v = 7#64)

/-! ### The shift table (40_shift_table.md) -/

/-- `POS(b)` (R80): strictly ascending, and exactly the groups `k` in 0..7 whose bit `7−k` is 1. -/
def Obligations.PositionsAreTheSetGroups : Prop :=
  ∀ b : Byte, (positions b).Pairwise (· < ·) ∧
    ∀ k, k ∈ positions b ↔ k ≤ 7 ∧ b.getLsbD (7 - k) = true

/-- `COUNT(b) = popcount(b)`, 0 and 8 at the ends and 1..7 between (R81). -/
def Obligations.CountIsPopcount : Prop :=
  (∀ b : Byte, (tableEntry b).count = popcount b ∧ (tableEntry b).count = (positions b).length) ∧
  popcount 0x00#8 = 0 ∧ popcount 0xFF#8 = 8 ∧
    ∀ b : Byte, b ≠ 0x00#8 → b ≠ 0xFF#8 → 1 ≤ popcount b ∧ popcount b ≤ 7

/-- The ROM (R82, R85): a row `(COUNT(b), POS(b))` for `b` in 1..254 and none for 0 and 255. -/
def Obligations.RomHasRowsOneTo254 : Prop :=
  ∀ b : Byte,
    (1 ≤ b.toNat ∧ b.toNat ≤ 254 → rom b = some ⟨popcount b, positions b⟩) ∧
    (b.toNat = 0 ∨ b.toNat = 255 → rom b = none)

/-- `RDROM` (R86) with the word layout of R84: bits 2:0 the count, field `i` the position `i`, unused fields 0; the
indices 0 and 255 raise `ROM_INDEX`. -/
def Obligations.RdromDrivesTheRow : Prop :=
  (∀ wdata, decode 0x60#8 wdata = .ok (.rdrom (wdata.setWidth 8))) ∧
  ∀ (s : State) (b : Byte), s.fault = false →
    (b ≠ 0x00#8 → b ≠ 0xFF#8 → ∃ w : BitVec 24,
      exec (.rdrom b) s = .next { s with rdata := w.setWidth 64 } ∧
      (w.extractLsb' 0 3).toNat = popcount b ∧
      ∀ i, i < 7 → (w.extractLsb' (3 * i + 3) 3).toNat = (positions b).getD i 0) ∧
    (b = 0x00#8 ∨ b = 0xFF#8 → exec (.rdrom b) s = .next { s with
      fault := true, fcode := .romIndex, rdata := Config.rdataIdle s.draws, draws := s.draws + 1 })

/-- The payload lengths (20_memory.md R47). -/
def Obligations.PayloadLengths : Prop :=
  (∀ b : Byte, payloadLen64 b = popcount b ∧ payloadLen64 b ≤ 8 ∧
    payloadLen32 b = (popcount b + 1) / 2 ∧ payloadLen32 b ≤ 4) ∧
  payloadLen64 0x00#8 = 0 ∧ payloadLen32 0x00#8 = 0 ∧ payloadLen64 0xFF#8 = 8 ∧
    payloadLen32 0xFF#8 = 4

/-! ### The 64-bit codec (41_codec64.md) -/

/-- `BM64` (R90). -/
def Obligations.Bitmap64FlagsNonZeroBytes : Prop :=
  (∀ (x : Word) (k : Nat), k ≤ 7 →
    ((bitmap64 x).getLsbD (7 - k) = true ↔ byteGroup x k ≠ 0x00#8)) ∧
  bitmap64 0#64 = 0x00#8 ∧
  ∀ x : Word, bitmap64 x = 0xFF#8 ↔ ∀ k, k ≤ 7 → byteGroup x k ≠ 0x00#8

/-- `PAY64` (R91): the non-zero bytes of `x` from the least significant to the most significant, the zero bytes left
out; as many as the bitmap has set bits. -/
def Obligations.Payload64IsTheNonZeroBytes : Prop :=
  (∀ x : Word, payload64 x = ((List.range 8).map (byteGroup x)).filter (· != 0x00#8) ∧
    (payload64 x).length = popcount (bitmap64 x) ∧ ∀ v ∈ payload64 x, v ≠ 0x00#8) ∧
  payload64 0#64 = []

/-- The source's loop computes the closed form (R93). -/
def Obligations.EncodeLoop64IsTheClosedForm : Prop :=
  ∀ x : Word, encodeLoop64 x = encode64 x

/-- The encoder's fast path and its zero (R94, R95). -/
def Obligations.Encode64FastPaths : Prop :=
  (∀ x : Word, (∀ k, k ≤ 7 → byteGroup x k ≠ 0x00#8) →
    encode64 x = 0xFF#8 :: (List.range 8).map (byteGroup x) ∧ (encode64 x).length = 9) ∧
  encode64 0#64 = [0x00#8]

/-- The length of an encoding (R102). -/
def Obligations.EncodedLength64 : Prop :=
  ∀ x : Word, (encode64 x).length = encodedLen64 x ∧ 1 ≤ encodedLen64 x ∧ encodedLen64 x ≤ 9 ∧
    (encodedLen64 x = 1 ↔ x = 0#64) ∧
    (encodedLen64 x = 9 ↔ ∀ k, k ≤ 7 → byteGroup x k ≠ 0x00#8) ∧
    encodedLen64 x = 1 + ((List.range 8).filter fun k => byteGroup x k != 0x00#8).length

/-- `PACK64` (R96): the encoding from `BUF[0]`, a free byte at each index above it, its length in `LEN`; nothing else
changes. -/
def Obligations.Pack64StoresTheEncoding : Prop :=
  (∀ wdata, decode 0x80#8 wdata = .ok .pack64) ∧
  ∀ s : State, s.fault = false →
    ∃ t, exec .pack64 s = .next t ∧
      memRead t.buf 0 (encode64 s.val).length = some (encode64 s.val) ∧
      (∀ j, (encode64 s.val).length ≤ j → j ≤ 8 →
        memRead t.buf j 1 = some [Config.tailDraw s.draws j]) ∧
      t.len.toNat = (encode64 s.val).length ∧
      t = { s with
        buf := t.buf, len := t.len, rdata := Config.rdataIdle s.draws, draws := s.draws + 1 }

/-- The three arms of `DEC64` are one formula (R97), and only the first `N64(b)` payload bytes are read. -/
def Obligations.Decode64IsOneFormula : Prop :=
  ∀ (b : Byte) (p : List Byte), payloadLen64 b ≤ p.length →
    decode64 b p = BitVec.ofNat 64
      ((List.range (popcount b)).map fun i =>
        (p.getD i 0#8).toNat <<< (8 * (positions b).getD i 0)).sum ∧
    decode64 b p = decode64 b (p.take (payloadLen64 b))

/-- The decoder's sum has no carry (R100): it is below `2^64` and equals the OR of its terms. -/
def Obligations.Decode64SumIsExact : Prop :=
  ∀ (b : Byte) (p : List Byte), payloadLen64 b ≤ p.length →
    scatter64 (positions b) p < 2 ^ 64 ∧
    decode64 b p = (List.range (popcount b)).foldl
      (fun v i => v ||| ((p.getD i 0#8).setWidth 64 <<< (8 * (positions b).getD i 0))) 0#64

/-- Encoding what was decoded gives the bytes back when and only when no payload byte read is zero (R100). -/
def Obligations.CanonicalExactly64 : Prop :=
  ∀ (b : Byte) (p : List Byte), payloadLen64 b ≤ p.length →
    (encode64 (decode64 b p) = b :: p.take (payloadLen64 b) ↔
      ∀ i, i < payloadLen64 b → p.getD i 0#8 ≠ 0x00#8)

/-- `UNPACK64` (R98). -/
def Obligations.Unpack64DecodesTheBuffer : Prop :=
  (∀ wdata, decode 0x90#8 wdata = .ok .unpack64) ∧
  ∀ s : State, s.fault = false → ∃ (b : Byte) (p : List Byte), memRead s.buf 0 1 = some [b] ∧
    memRead s.buf 1 (popcount b) = some p ∧
    ∃ t, exec .unpack64 s = .next t ∧ t.val = decode64 b p ∧ t.len.toNat = 1 + popcount b ∧
      t = { s with
        val := t.val, len := t.len, rdata := Config.rdataIdle s.draws, draws := s.draws + 1 }

/-- `UNPACK64` reads no byte of `BUF` above index `N64(BUF[0])` (R98): the others do not affect the result. -/
def Obligations.Unpack64ReadsOnlyTheEncoding : Prop :=
  ∀ s s' : State, s.fault = false → s'.fault = false →
    (∀ j, j ≤ payloadLen64 (s.buf.byte 0) → s.buf.byte j = s'.buf.byte j) →
    ∃ t t', exec .unpack64 s = .next t ∧ exec .unpack64 s' = .next t' ∧ t.val = t'.val ∧
      t.len = t'.len

/-- `PLEN64` (R99). -/
def Obligations.Plen64SetsLen : Prop :=
  (∀ wdata, decode 0xA0#8 wdata = .ok .plen64) ∧
  ∀ s : State, s.fault = false → ∃ b : Byte, memRead s.buf 0 1 = some [b] ∧
    ∃ t, exec .plen64 s = .next t ∧ t.len.toNat = 1 + popcount b ∧
      t = { s with len := t.len, rdata := Config.rdataIdle s.draws, draws := s.draws + 1 }

/-- The round trip (R101), as a law of the functions and in commands: from any running state `LDVAL #x`, `PACK64`,
`UNPACK64` leave `x` in `VAL` and `LEN64(x)` in `LEN`, whatever the tail draws are. -/
def Obligations.RoundTrip64 : Prop :=
  (∀ x : Word, decode64 (bitmap64 x) (payload64 x) = x) ∧
  ∀ (s : State) (x : Word), s.fault = false →
    ∃ t₁ t₂ t₃, exec (.ldval x) s = .next t₁ ∧ exec .pack64 t₁ = .next t₂ ∧
      exec .unpack64 t₂ = .next t₃ ∧ t₃.val = x ∧ t₃.len.toNat = encodedLen64 x

/-- The encoding is injective and prefix-free (R103). -/
def Obligations.Encoding64IsPrefixFree : Prop :=
  (∀ x y : Word, encode64 x = encode64 y → x = y) ∧
  (∀ x : Word, (encode64 x).length = 1 + payloadLen64 ((encode64 x).getD 0 0#8)) ∧
  ∀ (x y : Word) (r r' : List Byte), encode64 x ++ r = encode64 y ++ r' → x = y ∧ r = r'

/-! ### The 32-bit codec (42_codec32.md) -/

/-- `BM32` (R110). -/
def Obligations.Bitmap32FlagsNonZeroNibbles : Prop :=
  (∀ (x : Word32) (k : Nat), k ≤ 7 →
    ((bitmap32 x).getLsbD (7 - k) = true ↔ nibGroup x k ≠ 0x0#4)) ∧
  bitmap32 0#32 = 0x00#8 ∧
  ∀ x : Word32, bitmap32 x = 0xFF#8 ↔ ∀ k, k ≤ 7 → nibGroup x k ≠ 0x0#4

/-- `NIB32` (R111). -/
def Obligations.Nibbles32AreTheNonZeroNibbles : Prop :=
  ∀ x : Word32, nibbles32 x = ((List.range 8).map (nibGroup x)).filter (· != 0x0#4) ∧
    (nibbles32 x).length = popcount (bitmap32 x) ∧ ∀ v ∈ nibbles32 x, v ≠ 0x0#4

/-- `PAY32` (R112) with the zero pad of R115: byte `j` holds nibble `2j` low and nibble `2j+1` high, and equals byte
`j` of the accumulator. -/
def Obligations.Payload32PacksTwoNibbles : Prop :=
  (∀ x : Word32, (payload32 x).length = (popcount (bitmap32 x) + 1) / 2 ∧
    ∀ j, j < (payload32 x).length →
      (payload32 x).getD j 0#8 =
        (nibbles32 x).getD (2 * j + 1) 0x0#4 ++ (nibbles32 x).getD (2 * j) 0x0#4 ∧
      ((payload32 x).getD j 0#8).toNat =
        (((nibbles32 x).zipIdx.map fun e => e.1.toNat <<< (4 * e.2)).sum >>> (8 * j)) % 256) ∧
  payload32 0#32 = []

/-- The source's loop computes the closed form (R114). -/
def Obligations.EncodeLoop32IsTheClosedForm : Prop :=
  ∀ x : Word32, encodeLoop32 x = encode32 x

/-- With all eight nibbles non-zero the general rule gives the four raw little-endian bytes (R116). -/
def Obligations.Encode32OfFullBitmap : Prop :=
  ∀ x : Word32, (∀ k, k ≤ 7 → nibGroup x k ≠ 0x0#4) →
    encode32 x = [0xFF#8, x.extractLsb' 0 8, x.extractLsb' 8 8, x.extractLsb' 16 8,
      x.extractLsb' 24 8]

/-- The length of an encoding (R123). -/
def Obligations.EncodedLength32 : Prop :=
  ∀ x : Word32, (encode32 x).length = encodedLen32 x ∧ 1 ≤ encodedLen32 x ∧ encodedLen32 x ≤ 5 ∧
    (encodedLen32 x = 1 ↔ x = 0#32) ∧
    (encodedLen32 x = 5 ↔
      7 ≤ ((List.range 8).filter fun k => nibGroup x k != 0x0#4).length) ∧
    encodedLen32 x = 1 + (((List.range 8).filter fun k => nibGroup x k != 0x0#4).length + 1) / 2

/-- `PACK32` (R117): the encoding of `VAL[31:0]` from `BUF[0]`, a free byte at each index above it up to 4,
`BUF[5..8]` as they were, its length in `LEN`; nothing else changes. -/
def Obligations.Pack32StoresTheEncoding : Prop :=
  (∀ wdata, decode 0xC0#8 wdata = .ok .pack32) ∧
  ∀ s : State, s.fault = false →
    ∃ t, exec .pack32 s = .next t ∧
      memRead t.buf 0 (encode32 (s.val.setWidth 32)).length = some (encode32 (s.val.setWidth 32)) ∧
      (∀ j, (encode32 (s.val.setWidth 32)).length ≤ j → j ≤ 4 →
        memRead t.buf j 1 = some [Config.tailDraw s.draws j]) ∧
      (∀ j, 5 ≤ j → memRead t.buf j 1 = memRead s.buf j 1) ∧
      t.len.toNat = (encode32 (s.val.setWidth 32)).length ∧
      t = { s with
        buf := t.buf, len := t.len, rdata := Config.rdataIdle s.draws, draws := s.draws + 1 }

/-- `DEC32` (R118): one formula for every bitmap, and for `0xFF` the little-endian decode of four bytes; only the
first `N32(b)` payload bytes are read. -/
def Obligations.Decode32IsOneFormula : Prop :=
  (∀ (b : Byte) (p : List Byte), payloadLen32 b ≤ p.length →
    decode32 b p = (List.range (popcount b)).foldl
      (fun v i => v ||| ((nibbleOf p i).setWidth 32 <<< (4 * (positions b).getD i 0))) 0#32 ∧
    decode32 b p = decode32 b (p.take (payloadLen32 b))) ∧
  ∀ p0 p1 p2 p3 : Byte, decode32 0xFF#8 [p0, p1, p2, p3] = p3 ++ p2 ++ p1 ++ p0

/-- Encoding what was decoded gives the bytes back when and only when no nibble read is zero and the pad of an odd
count is zero (R121). -/
def Obligations.CanonicalExactly32 : Prop :=
  ∀ (b : Byte) (p : List Byte), payloadLen32 b ≤ p.length →
    (encode32 (decode32 b p) = b :: p.take (payloadLen32 b) ↔
      (∀ i, i < popcount b → nibbleOf p i ≠ 0x0#4) ∧
      (popcount b % 2 = 1 → (p.getD (payloadLen32 b - 1) 0#8).extractLsb' 4 4 = 0x0#4))

/-- `UNPACK32` (R119): all 64 bits of `VAL` are written, the upper half with zero. -/
def Obligations.Unpack32DecodesTheBuffer : Prop :=
  (∀ wdata, decode 0xD0#8 wdata = .ok .unpack32) ∧
  ∀ s : State, s.fault = false → ∃ (b : Byte) (p : List Byte), memRead s.buf 0 1 = some [b] ∧
    memRead s.buf 1 ((popcount b + 1) / 2) = some p ∧
    ∃ t, exec .unpack32 s = .next t ∧ t.val = (decode32 b p).setWidth 64 ∧
      t.len.toNat = 1 + (popcount b + 1) / 2 ∧
      t = { s with
        val := t.val, len := t.len, rdata := Config.rdataIdle s.draws, draws := s.draws + 1 }

/-- `UNPACK32` reads no byte of `BUF` above index `N32(BUF[0])` (R119), so never `BUF[5..8]`. -/
def Obligations.Unpack32ReadsOnlyTheEncoding : Prop :=
  ∀ s s' : State, s.fault = false → s'.fault = false →
    (∀ j, j ≤ payloadLen32 (s.buf.byte 0) → s.buf.byte j = s'.buf.byte j) →
    ∃ t t', exec .unpack32 s = .next t ∧ exec .unpack32 s' = .next t' ∧ t.val = t'.val ∧
      t.len = t'.len

/-- `PLEN32` (R120). -/
def Obligations.Plen32SetsLen : Prop :=
  (∀ wdata, decode 0xE0#8 wdata = .ok .plen32) ∧
  ∀ s : State, s.fault = false → ∃ b : Byte, memRead s.buf 0 1 = some [b] ∧
    ∃ t, exec .plen32 s = .next t ∧ t.len.toNat = 1 + (popcount b + 1) / 2 ∧
      t = { s with len := t.len, rdata := Config.rdataIdle s.draws, draws := s.draws + 1 }

/-- The round trip (R122), as a law of the functions and in commands: `LDVAL #x`, `PACK32`, `UNPACK32` leave
`zext_64(x[31:0])` in `VAL` and `LEN32(x[31:0])` in `LEN`, whatever the tail draws are. -/
def Obligations.RoundTrip32 : Prop :=
  (∀ x : Word32, decode32 (bitmap32 x) (payload32 x) = x) ∧
  ∀ (s : State) (x : Word), s.fault = false →
    ∃ t₁ t₂ t₃, exec (.ldval x) s = .next t₁ ∧ exec .pack32 t₁ = .next t₂ ∧
      exec .unpack32 t₂ = .next t₃ ∧ t₃.val = (x.setWidth 32).setWidth 64 ∧
      t₃.len.toNat = encodedLen32 (x.setWidth 32)
end

