-- ==== Sys2Proof/Laws/Config.lean ====
section
/-! SUPPORT. The parameters as numerals, for simp. -/

namespace Sys2Proof

@[simp] theorem Config.bufSize_eq : Config.bufSize = 9 := rfl
@[simp] theorem Config.maxLen32_eq : Config.maxLen32 = 5 := rfl
@[simp] theorem Config.nGroups_eq : Config.nGroups = 8 := rfl
@[simp] theorem Config.unlistedByte_eq : Config.unlistedByte = 0x00#8 := rfl

end Sys2Proof
end

