-- ==== Sys2Proof/Laws/Decode.lean ====
section
/-! SUPPORT. The decoder, row by row: the command word alone selects the row, and the row builds the command. -/

namespace Sys2Proof

/-- A word that a row selects decodes to what the row builds. -/
theorem decode_of_row {cmd : Byte} {row : OpRow}
    (h : opcodeMap.find? (fun r => r.selects cmd) = some row) (wdata : Word) :
    decode cmd wdata = .ok (row.build cmd wdata) := by
  simp only [decode, h]

/-- A word that no row selects is rejected by name. -/
theorem decode_of_no_row {cmd : Byte} (h : opcodeMap.find? (fun r => r.selects cmd) = none)
    (wdata : Word) : decode cmd wdata = .error (rejection cmd) := by
  simp only [decode, h]

/-- A property of bytes that holds at the 256 numerals holds of every byte. -/
theorem forall_byte {P : Byte → Prop} (h : ∀ n, n < 256 → P (BitVec.ofNat 8 n)) (b : Byte) : P b := by
  simpa using h b.toNat b.isLt

/-- A property of nibbles that holds at the 16 numerals holds of every nibble. -/
theorem forall_nibble {P : Nibble → Prop} (h : ∀ n, n < 16 → P (BitVec.ofNat 4 n)) (b : Nibble) :
    P b := by
  simpa using h b.toNat b.isLt

end Sys2Proof
end

