-- ==== Sys2Proof/Laws/Codec.lean ====
section
/-! SUPPORT. The small laws of the codec functions: the bits of a bitmap built from groups, its positions, and the
bounds on lengths that keep every command inside `BUF` (20_memory.md R43). -/

namespace Sys2Proof.Machine

/-- Bit `7−k` of a bitmap flags group `k` (R46). -/
theorem bitmapOf_bit (g : Nat → Bool) {k : Nat} (hk : k < 8) :
    (bitmapOf g).getLsbD (7 - k) = g k := by
  have bits : ∀ a b c d e f g h : Bool,
      let v : Byte := BitVec.ofBool a ++ BitVec.ofBool b ++ BitVec.ofBool c ++ BitVec.ofBool d ++
        BitVec.ofBool e ++ BitVec.ofBool f ++ BitVec.ofBool g ++ BitVec.ofBool h
      v.getLsbD 7 = a ∧ v.getLsbD 6 = b ∧ v.getLsbD 5 = c ∧ v.getLsbD 4 = d ∧ v.getLsbD 3 = e ∧
        v.getLsbD 2 = f ∧ v.getLsbD 1 = g ∧ v.getLsbD 0 = h := by decide +kernel
  obtain ⟨b7, b6, b5, b4, b3, b2, b1, b0⟩ := bits (g 0) (g 1) (g 2) (g 3) (g 4) (g 5) (g 6) (g 7)
  interval_cases k <;> assumption

/-- The positions of a bitmap built from groups are the flagged groups, in ascending order. -/
theorem positions_bitmapOf (g : Nat → Bool) : positions (bitmapOf g) = (List.range 8).filter g :=
  List.filter_congr fun _ hk => bitmapOf_bit g (List.mem_range.mp hk)

/-- At most 8 bits of a byte are set. -/
theorem popcount_le (b : Byte) : popcount b ≤ 8 := by
  revert b; apply forall_byte; decide +kernel

theorem payloadLen64_le (b : Byte) : payloadLen64 b ≤ 8 := popcount_le b

theorem payloadLen32_eq (b : Byte) : payloadLen32 b = (popcount b + 1) / 2 := by
  simp [payloadLen32, ceilHalf, Nat.shiftRight_eq_div_pow]

theorem payloadLen32_le (b : Byte) : payloadLen32 b ≤ 4 := by
  have := popcount_le b
  rw [payloadLen32_eq]; omega

theorem positions_length_le (b : Byte) : (positions b).length ≤ 8 := by
  exact (List.length_filter_le _ _).trans (by simp)

/-- An encoding of `VL64` fits `BUF`. -/
theorem encode64_length_le (x : Word) : (encode64 x).length ≤ 9 := by
  have := positions_length_le (bitmap64 x)
  simp only [encode64, payload64, List.length_cons, List.length_map]
  omega

/-- Two nibbles per byte, rounded up. -/
theorem packNibbles_length (l : List Nibble) : (packNibbles l).length = (l.length + 1) / 2 := by
  fun_induction packNibbles l <;> simp_all
  omega

/-- An encoding of `VL32` fits below `MAXLEN32`. -/
theorem encode32_length_le (x : Word32) : (encode32 x).length ≤ 5 := by
  have := positions_length_le (bitmap32 x)
  simp only [encode32, payload32, nibbles32, List.length_cons, packNibbles_length, List.length_map]
  omega

end Sys2Proof.Machine
end

