-- ==== Sys2Proof/Laws/Memory.lean ====
section
/-! SUPPORT. The laws of `BUF`: every memory operation answers a canonical memory, a byte read after a write is
the byte written, every other byte is left alone, and two canonical memories with equal bytes are equal. -/

namespace Sys2Proof.Machine

theorem Memory.byte_filterMap_cell (f : Nat → Byte) (l : List Nat) (a : Nat) :
    Memory.byte (l.filterMap fun a => Memory.cell a (f a)) a =
      if a ∈ l then f a else Config.unlistedByte := by
  induction l with
  | nil => rfl
  | cons x l ih =>
    by_cases hx : f x = Config.unlistedByte
    · by_cases ha : a = x
      · subst ha; simp_all [Memory.cell]
      · simp_all [Memory.cell]
    · by_cases ha : x = a
      · subst ha; simp [Memory.cell, hx, Memory.byte]
      · have ha' : ¬ a = x := fun h => ha h.symm
        simp_all [Memory.cell, Memory.byte]

/-- The byte of a memory built from its bytes. -/
theorem Memory.byte_ofBytes (f : Nat → Byte) (a : Nat) :
    (Memory.ofBytes f).byte a = if a < Config.bufSize then f a else Config.unlistedByte := by
  simp [Memory.ofBytes, Memory.byte_filterMap_cell]

/-- A memory built from its bytes is canonical. -/
theorem Memory.wf_ofBytes (f : Nat → Byte) : (Memory.ofBytes f).wf := by
  refine ⟨?_, ?_⟩
  · have key : ∀ l : List Nat, l.Pairwise (· < ·) →
        ((l.filterMap fun a => Memory.cell a (f a)).map Prod.fst).Pairwise (· < ·) ∧
          ∀ c ∈ (l.filterMap fun a => Memory.cell a (f a)).map Prod.fst, c ∈ l := by
      intro l
      induction l with
      | nil => simp
      | cons x l ih =>
        intro h
        obtain ⟨hx, hl⟩ := List.pairwise_cons.mp h
        obtain ⟨h1, h2⟩ := ih hl
        by_cases hv : f x = Config.unlistedByte
        · simp only [List.filterMap_cons, Memory.cell, hv, if_true]
          exact ⟨h1, fun c hc => List.mem_cons_of_mem _ (h2 c hc)⟩
        · simp only [List.filterMap_cons, Memory.cell, hv, if_false, List.map_cons]
          refine ⟨List.pairwise_cons.mpr ⟨fun c hc => hx c (h2 c hc), h1⟩, fun c hc => ?_⟩
          rcases List.mem_cons.mp hc with rfl | hc
          · exact List.mem_cons_self
          · exact List.mem_cons_of_mem _ (h2 c hc)
    exact (key _ List.pairwise_lt_range).1
  · intro c hc
    obtain ⟨a, ha, hcell⟩ := List.mem_filterMap.mp hc
    unfold Memory.cell at hcell
    split at hcell
    · cases hcell
    · cases hcell; exact ⟨List.mem_range.mp ha, ‹_›⟩

/-- Every write answers a canonical memory, whatever memory it started from. -/
theorem Memory.wf_put (m : Memory) (i : Nat) (bs : List Byte) : (m.put i bs).wf :=
  Memory.wf_ofBytes _

/-- Read after write: the byte written inside the range, the old byte elsewhere in `BUF`. -/
theorem Memory.byte_put (m : Memory) (i : Nat) (bs : List Byte) (a : Nat) :
    (m.put i bs).byte a =
      if a < Config.bufSize then
        if i ≤ a ∧ a < i + bs.length then bs.getD (a - i) Config.unlistedByte else m.byte a
      else Config.unlistedByte :=
  Memory.byte_ofBytes _ _

/-- A memory lists no address that is not one of its cells'. -/
theorem Memory.byte_of_not_mem (m : Memory) (a : Nat) (h : ∀ c ∈ m, c.1 ≠ a) :
    m.byte a = Config.unlistedByte := by
  induction m with
  | nil => rfl
  | cons c m ih =>
    have hc : c.1 ≠ a := h c List.mem_cons_self
    simp only [Memory.byte, if_neg hc]
    exact ih fun d hd => h d (List.mem_cons_of_mem _ hd)

/-- Canonical memories with equal bytes are equal data. -/
theorem Memory.ext_byte {m m' : Memory} (h : m.wf) (h' : m'.wf)
    (hb : ∀ a, m.byte a = m'.byte a) : m = m' := by
  induction m generalizing m' with
  | nil =>
    cases m' with
    | nil => rfl
    | cons c m' =>
      have := hb c.1
      simp only [Memory.byte, if_true] at this
      exact absurd this.symm (h'.2 c List.mem_cons_self).2
  | cons c m ih =>
    obtain ⟨hp, hc⟩ := h
    rw [List.map_cons, List.pairwise_cons] at hp
    have low : ∀ {n : Memory} {d : Host.Cell}, (∀ x ∈ n.map Prod.fst, d.1 < x) → ∀ a, a ≤ d.1 →
        n.byte a = Config.unlistedByte := by
      intro n d hn a ha
      refine Memory.byte_of_not_mem n a fun x hx => ?_
      have := hn x.1 (List.mem_map_of_mem hx)
      omega
    cases m' with
    | nil =>
      have := hb c.1
      simp only [Memory.byte, if_true] at this
      exact absurd this (hc c List.mem_cons_self).2
    | cons d m' =>
      obtain ⟨hp', hd⟩ := h'
      rw [List.map_cons, List.pairwise_cons] at hp'
      have hcd : c.1 = d.1 := by
        rcases Nat.lt_trichotomy c.1 d.1 with hlt | heq | hgt
        · have := hb c.1
          simp only [Memory.byte, if_true, if_neg (Nat.ne_of_gt hlt)] at this
          rw [low hp'.1 c.1 (Nat.le_of_lt hlt)] at this
          exact absurd this (hc c List.mem_cons_self).2
        · exact heq
        · have := hb d.1
          simp only [Memory.byte, if_true, if_neg (Nat.ne_of_gt hgt)] at this
          rw [low hp.1 d.1 (Nat.le_of_lt hgt)] at this
          exact absurd this.symm (hd d List.mem_cons_self).2
      have hv : c.2 = d.2 := by
        have := hb c.1
        simpa only [Memory.byte, if_true, hcd] using this
      have hrest : m = m' := by
        refine ih ⟨hp.2, fun x hx => hc x (List.mem_cons_of_mem _ hx)⟩
          ⟨hp'.2, fun x hx => hd x (List.mem_cons_of_mem _ hx)⟩ fun a => ?_
        by_cases ha : a ≤ c.1
        · rw [low hp.1 a ha, low hp'.1 a (hcd ▸ ha)]
        · have := hb a
          have h1 : ¬ c.1 = a := by omega
          have h2 : ¬ d.1 = a := by omega
          simpa only [Memory.byte, if_neg h1, if_neg h2] using this
      rw [hrest, Prod.ext hcd hv]

/-- `MemRead` answers exactly inside `BUF` (R12). -/
theorem memRead_eq_some {m : Memory} {i n : Nat} {bs : List Byte} :
    memRead m i n = some bs ↔
      i + n ≤ Config.bufSize ∧ bs = (List.range n).map fun j => m.byte (i + j) := by
  unfold memRead
  split <;> simp_all [eq_comm]

/-- One byte read inside `BUF`. -/
theorem memRead_one {m : Memory} {a : Nat} (h : a < Config.bufSize) :
    memRead m a 1 = some [m.byte a] :=
  memRead_eq_some.mpr ⟨h, rfl⟩

/-- One byte read outside `BUF`: there is none. -/
theorem memRead_one_none {m : Memory} {a : Nat} (h : ¬ a < Config.bufSize) :
    memRead m a 1 = none := by
  unfold memRead
  rw [if_neg]
  simpa using h

/-- Two memories with the same byte at `a` answer the same there. -/
theorem memRead_congr {m m' : Memory} {a : Nat} (h : m.byte a = m'.byte a) :
    memRead m a 1 = memRead m' a 1 := by
  simp [memRead, h]

/-- `MemWrite` answers exactly inside `BUF` (R12). -/
theorem memWrite_eq_some {m m' : Memory} {i : Nat} {bs : List Byte} :
    memWrite m i bs = some m' ↔ i + bs.length ≤ Config.bufSize ∧ m' = m.put i bs := by
  unfold memWrite
  split <;> simp_all [eq_comm]

/-- What `MemWrite` leaves: a canonical memory with the bytes written in their range and the old ones elsewhere. -/
theorem memWrite_spec {m m' : Memory} {i : Nat} {bs : List Byte} (h : memWrite m i bs = some m') :
    m'.wf ∧ (∀ j, j < bs.length → m'.byte (i + j) = bs.getD j Config.unlistedByte) ∧
      ∀ a, a < Config.bufSize → a < i ∨ i + bs.length ≤ a → m'.byte a = m.byte a := by
  obtain ⟨hr, rfl⟩ := memWrite_eq_some.mp h
  refine ⟨Memory.wf_put .., fun j hj => ?_, fun a ha hout => ?_⟩
  · rw [Memory.byte_put, if_pos (by omega), if_pos (by omega), Nat.add_sub_cancel_left]
  · rw [Memory.byte_put, if_pos ha, if_neg (by omega)]

end Sys2Proof.Machine
end

