-- ==== Sys2Proof/Laws/State.lean ====
section
/-! SUPPORT. What each named update does to each field of the state: one lemma per field per update. -/

namespace Sys2Proof.Machine

@[simp] theorem drive_val (v : Word) (s : State) : (drive v s).val = s.val := rfl
@[simp] theorem drive_buf (v : Word) (s : State) : (drive v s).buf = s.buf := rfl
@[simp] theorem drive_len (v : Word) (s : State) : (drive v s).len = s.len := rfl
@[simp] theorem drive_fault (v : Word) (s : State) : (drive v s).fault = s.fault := rfl
@[simp] theorem drive_fcode (v : Word) (s : State) : (drive v s).fcode = s.fcode := rfl
@[simp] theorem drive_rdata (v : Word) (s : State) : (drive v s).rdata = v := rfl
@[simp] theorem drive_port (v : Word) (s : State) : (drive v s).port = s.port := rfl
@[simp] theorem drive_draws (v : Word) (s : State) : (drive v s).draws = s.draws := rfl

@[simp] theorem driveAny_val (s : State) : (driveAny s).val = s.val := rfl
@[simp] theorem driveAny_buf (s : State) : (driveAny s).buf = s.buf := rfl
@[simp] theorem driveAny_len (s : State) : (driveAny s).len = s.len := rfl
@[simp] theorem driveAny_fault (s : State) : (driveAny s).fault = s.fault := rfl
@[simp] theorem driveAny_fcode (s : State) : (driveAny s).fcode = s.fcode := rfl
@[simp] theorem driveAny_rdata (s : State) : (driveAny s).rdata = Config.rdataIdle s.draws := rfl
@[simp] theorem driveAny_port (s : State) : (driveAny s).port = s.port := rfl
@[simp] theorem driveAny_draws (s : State) : (driveAny s).draws = s.draws + 1 := rfl

@[simp] theorem raiseFault_val (c : FaultCode) (s : State) : (raiseFault c s).val = s.val := rfl
@[simp] theorem raiseFault_buf (c : FaultCode) (s : State) : (raiseFault c s).buf = s.buf := rfl
@[simp] theorem raiseFault_len (c : FaultCode) (s : State) : (raiseFault c s).len = s.len := rfl
@[simp] theorem raiseFault_fault (c : FaultCode) (s : State) : (raiseFault c s).fault = true := rfl
@[simp] theorem raiseFault_fcode (c : FaultCode) (s : State) : (raiseFault c s).fcode = c := rfl
@[simp] theorem raiseFault_rdata (c : FaultCode) (s : State) : (raiseFault c s).rdata = Config.rdataIdle s.draws := rfl
@[simp] theorem raiseFault_port (c : FaultCode) (s : State) : (raiseFault c s).port = s.port := rfl
@[simp] theorem raiseFault_draws (c : FaultCode) (s : State) : (raiseFault c s).draws = s.draws + 1 := rfl

@[simp] theorem noEffect_val (s : State) : (noEffect s).val = s.val := rfl
@[simp] theorem noEffect_buf (s : State) : (noEffect s).buf = s.buf := rfl
@[simp] theorem noEffect_len (s : State) : (noEffect s).len = s.len := rfl
@[simp] theorem noEffect_fault (s : State) : (noEffect s).fault = s.fault := rfl
@[simp] theorem noEffect_fcode (s : State) : (noEffect s).fcode = s.fcode := rfl
@[simp] theorem noEffect_rdata (s : State) : (noEffect s).rdata = Config.rdataIdle s.draws := rfl
@[simp] theorem noEffect_port (s : State) : (noEffect s).port = s.port := rfl
@[simp] theorem noEffect_draws (s : State) : (noEffect s).draws = s.draws + 1 := rfl

@[simp] theorem resetStep_val (s : State) : (resetStep s).val = 0#64 := rfl
@[simp] theorem resetStep_buf (s : State) : (resetStep s).buf = [] := rfl
@[simp] theorem resetStep_len (s : State) : (resetStep s).len = 0#4 := rfl
@[simp] theorem resetStep_fault (s : State) : (resetStep s).fault = false := rfl
@[simp] theorem resetStep_fcode (s : State) : (resetStep s).fcode = .noCause := rfl
@[simp] theorem resetStep_rdata (s : State) : (resetStep s).rdata = Config.rdataIdle s.draws := rfl
@[simp] theorem resetStep_port (s : State) : (resetStep s).port = s.port := rfl
@[simp] theorem resetStep_draws (s : State) : (resetStep s).draws = s.draws + 1 := rfl

@[simp] theorem takeInput_val (s : State) : (takeInput s).val = s.val := rfl
@[simp] theorem takeInput_buf (s : State) : (takeInput s).buf = s.buf := rfl
@[simp] theorem takeInput_len (s : State) : (takeInput s).len = s.len := rfl
@[simp] theorem takeInput_fault (s : State) : (takeInput s).fault = s.fault := rfl
@[simp] theorem takeInput_fcode (s : State) : (takeInput s).fcode = s.fcode := rfl
@[simp] theorem takeInput_rdata (s : State) : (takeInput s).rdata = s.rdata := rfl
@[simp] theorem takeInput_port (s : State) : (takeInput s).port = s.port.tail := rfl
@[simp] theorem takeInput_draws (s : State) : (takeInput s).draws = s.draws := rfl

end Sys2Proof.Machine
end

