-- ==== Sys2Proof/Laws/Ops.lean ====
section
/-! SUPPORT. What each shared operation can answer, said once. -/

namespace Sys2Proof.Machine

/-- A running block has the command's own effect. -/
@[simp] theorem whenRunning_running {s : State} (h : s.fault = false) (e : Result) :
    whenRunning s e = e := by
  simp [whenRunning, h]

/-- A halted block has no effect (R153). -/
@[simp] theorem whenRunning_halted {s : State} (h : s.fault = true) (e : Result) :
    whenRunning s e = .next (noEffect s) := by
  simp [whenRunning, h]

@[simp] theorem withBuf_some {α : Type} (x : α) (go : α → Result) :
    withBuf (some x) go = go x := rfl

theorem withBuf_eq_next {α : Type} {access : Option α} {go : α → Result} {t : State} :
    withBuf access go = .next t ↔ ∃ x, access = some x ∧ go x = .next t := by
  cases access <;> simp [withBuf]

theorem tailBytes_length (d lo hi : Nat) : (tailBytes d lo hi).length = hi - lo := by
  simp [tailBytes]

theorem tailBytes_getD {d lo hi j : Nat} (h : lo + j < hi) (v : Byte) :
    (tailBytes d lo hi).getD j v = Config.tailDraw d (lo + j) := by
  have hj : j < hi - lo := by omega
  simp [tailBytes, List.getD_eq_getElem?_getD, hj]

/-- What the writes of a pack do, for an encoding that fits below `top` inside `BUF`: the encoding from `BUF[0]`,
draws up to `top`, the rest of `BUF` kept, its length in `LEN`, `rdata` open, nothing else. -/
theorem storeEncoding_spec {top : Nat} {e : List Byte} {s : State} (he : e.length ≤ top)
    (ht : top ≤ Config.bufSize) :
    ∃ m : Memory, storeEncoding top e s =
        .next (driveAny { s with buf := m, len := BitVec.ofNat 4 e.length }) ∧ m.wf ∧
      (∀ j, j < e.length → m.byte j = e.getD j Config.unlistedByte) ∧
      (∀ j, e.length ≤ j → j < top → m.byte j = Config.tailDraw s.draws j) ∧
      ∀ j, top ≤ j → j < Config.bufSize → m.byte j = s.buf.byte j := by
  have h1 : memWrite s.buf 0 e = some (s.buf.put 0 e) :=
    memWrite_eq_some.mpr ⟨by omega, rfl⟩
  have h2 : memWrite (s.buf.put 0 e) e.length (tailBytes s.draws e.length top) =
      some ((s.buf.put 0 e).put e.length (tailBytes s.draws e.length top)) :=
    memWrite_eq_some.mpr ⟨by rw [tailBytes_length]; omega, rfl⟩
  obtain ⟨_, a2, a3⟩ := memWrite_spec h1
  obtain ⟨b1, b2, b3⟩ := memWrite_spec h2
  rw [tailBytes_length] at b2 b3
  refine ⟨_, by simp only [storeEncoding, h1, h2, withBuf_some], b1, fun j hj => ?_, fun j hj hj' => ?_,
    fun j hj hj' => ?_⟩
  · rw [b3 j (by omega) (by omega)]
    simpa using a2 j hj
  · have := b2 (j - e.length) (by omega)
    rwa [Nat.add_sub_cancel' hj, tailBytes_getD (by omega), Nat.add_sub_cancel' hj] at this
  · rw [b3 j hj' (by omega), a3 j hj' (by omega)]

/-- What the writes of an unpack do, for a payload that fits `BUF`. -/
theorem loadDecoded_spec {len : Byte → Nat} {dec : Byte → List Byte → Word} {s : State}
    (h : len (s.buf.byte 0) ≤ 8) :
    loadDecoded len dec s = .next (driveAny
      { s with
        val := dec (s.buf.byte 0) ((List.range (len (s.buf.byte 0))).map fun j => s.buf.byte (1 + j))
        len := BitVec.ofNat 4 (1 + len (s.buf.byte 0)) }) := by
  have : memRead s.buf 1 (len (s.buf.byte 0)) = some _ := memRead_eq_some.mpr ⟨by simp only [Config.bufSize]; omega, rfl⟩
  simp only [loadDecoded, this, withBuf_some]

/-- A legal index reaches its location (R62). -/
theorem withBufIndex_legal {idx : Nibble} (h : idx.toNat < Config.bufSize) (s : State)
    (go : Nat → Result) : withBufIndex idx s go = go idx.toNat := by
  simp [withBufIndex, legalBufIndex, h]

/-- An illegal index raises `BUF_INDEX` (R62, R151). -/
theorem withBufIndex_illegal {idx : Nibble} (h : ¬ idx.toNat < Config.bufSize) (s : State)
    (go : Nat → Result) : withBufIndex idx s go = .next (raiseFault .bufIndex s) := by
  simp [withBufIndex, legalBufIndex, h]

/-- A legal row index reaches its row (R86). -/
theorem withRomIndex_legal {row : Byte} (h : row ≠ 0x00#8 ∧ row ≠ 0xFF#8) (s : State)
    (go : Byte → Result) : withRomIndex row s go = go row := by
  simp [withRomIndex, legalRomIndex, h]

/-- An excluded row index raises `ROM_INDEX` (R86, R151). -/
theorem withRomIndex_illegal {row : Byte} (h : row = 0x00#8 ∨ row = 0xFF#8) (s : State)
    (go : Byte → Result) : withRomIndex row s go = .next (raiseFault .romIndex s) := by
  rcases h with rfl | rfl <;> rfl

end Sys2Proof.Machine
end

