-- ==== Sys2Proof/Laws/Exec.lean ====
section
/-! SUPPORT. What `exec` answers, command by command, in terms of the named operations: under a halted block, and for
each command whose meaning goes through an operand check or an access to `BUF`. -/

namespace Sys2Proof.Machine

/-- A halted block: every command but `RDSTAT` has no effect (R153). -/
theorem exec_halted {i : Instr} {s : State} (h : s.fault = true) (hi : i ≠ .rdstat) :
    exec i s = .next (noEffect s) := by
  cases i <;> first | exact absurd rfl hi | exact whenRunning_halted h _

theorem exec_ldbuf_legal {idx : Nibble} (imm : Byte) {s : State} (h : s.fault = false)
    (hi : idx.toNat < Config.bufSize) :
    exec (.ldbuf idx imm) s = .next (driveAny { s with buf := s.buf.put idx.toNat [imm] }) := by
  have hw : memWrite s.buf idx.toNat [imm] = some (s.buf.put idx.toNat [imm]) :=
    memWrite_eq_some.mpr ⟨hi, rfl⟩
  exact (whenRunning_running h _).trans ((withBufIndex_legal hi s _).trans (by rw [hw, withBuf_some]))

theorem exec_ldbuf_illegal {idx : Nibble} (imm : Byte) {s : State} (h : s.fault = false)
    (hi : ¬ idx.toNat < Config.bufSize) :
    exec (.ldbuf idx imm) s = .next (raiseFault .bufIndex s) :=
  (whenRunning_running h _).trans (withBufIndex_illegal hi s _)

theorem exec_rdbuf_legal {idx : Nibble} {s : State} (h : s.fault = false)
    (hi : idx.toNat < Config.bufSize) :
    exec (.rdbuf idx) s = .next (drive ((s.buf.byte idx.toNat).setWidth 64) s) :=
  (whenRunning_running h _).trans
    ((withBufIndex_legal hi s _).trans (by rw [memRead_one hi, withBuf_some]; rfl))

theorem exec_rdbuf_illegal {idx : Nibble} {s : State} (h : s.fault = false)
    (hi : ¬ idx.toNat < Config.bufSize) : exec (.rdbuf idx) s = .next (raiseFault .bufIndex s) :=
  (whenRunning_running h _).trans (withBufIndex_illegal hi s _)

theorem exec_rdrom_legal {row : Byte} {s : State} (h : s.fault = false)
    (hr : row ≠ 0x00#8 ∧ row ≠ 0xFF#8) :
    exec (.rdrom row) s = .next (drive ((romWord (tableEntry row)).setWidth 64) s) :=
  (whenRunning_running h _).trans (withRomIndex_legal hr s _)

theorem exec_rdrom_illegal {row : Byte} {s : State} (h : s.fault = false)
    (hr : row = 0x00#8 ∨ row = 0xFF#8) : exec (.rdrom row) s = .next (raiseFault .romIndex s) :=
  (whenRunning_running h _).trans (withRomIndex_illegal hr s _)

theorem exec_pack64_running {s : State} (h : s.fault = false) :
    exec .pack64 s = storeEncoding 9 (encode64 s.val) s :=
  whenRunning_running h _

theorem exec_pack32_running {s : State} (h : s.fault = false) :
    exec .pack32 s = storeEncoding 5 (encode32 (s.val.setWidth 32)) s :=
  whenRunning_running h _

theorem exec_unpack64_running {s : State} (h : s.fault = false) :
    exec .unpack64 s = .next (driveAny
      { s with
        val := decode64 (s.buf.byte 0)
          ((List.range (payloadLen64 (s.buf.byte 0))).map fun j => s.buf.byte (1 + j))
        len := BitVec.ofNat 4 (1 + payloadLen64 (s.buf.byte 0)) }) :=
  (whenRunning_running h _).trans (loadDecoded_spec (payloadLen64_le _))

theorem exec_unpack32_running {s : State} (h : s.fault = false) :
    exec .unpack32 s = .next (driveAny
      { s with
        val := (decode32 (s.buf.byte 0)
          ((List.range (payloadLen32 (s.buf.byte 0))).map fun j => s.buf.byte (1 + j))).setWidth 64
        len := BitVec.ofNat 4 (1 + payloadLen32 (s.buf.byte 0)) }) :=
  (whenRunning_running h _).trans
    (loadDecoded_spec (Nat.le_trans (payloadLen32_le _) (by decide)))

end Sys2Proof.Machine
end

