-- ==== Sys2Proof/Laws/PerInstr.lean ====
section
/-! SUPPORT. Statements about every instruction as syntax, one lemma per constructor. -/

/-- The command word of the instruction is selected by exactly one row of the opcode map (R63). -/
def Sys2Proof.Laws.OneRow.Statement (i : Sys2Proof.Instr) : Prop :=
  (Sys2Proof.opcodeMap.filter fun row => row.selects (Sys2Proof.encode i).1).length = 1

namespace Sys2Proof.Laws.OneRow

theorem nop : Statement .nop := Eq.refl 1
theorem ldval (imm : Word) : Statement (.ldval imm) :=
  show (opcodeMap.filter fun row => row.selects 0x10#8).length = 1 from Eq.refl 1
theorem rdval : Statement .rdval := Eq.refl 1
theorem ldbuf (idx : Nibble) (imm : Byte) : Statement (.ldbuf idx imm) := by
  have : ∀ idx : Nibble, (opcodeMap.filter fun row => row.selects (0x3#4 ++ idx)).length = 1 := by
    decide
  exact this idx
theorem rdbuf (idx : Nibble) : Statement (.rdbuf idx) := by
  have : ∀ idx : Nibble, (opcodeMap.filter fun row => row.selects (0x4#4 ++ idx)).length = 1 := by
    decide
  exact this idx
theorem rdlen : Statement .rdlen := Eq.refl 1
theorem rdrom (row : Byte) : Statement (.rdrom row) :=
  show (opcodeMap.filter fun row => row.selects 0x60#8).length = 1 from Eq.refl 1
theorem rdstat : Statement .rdstat := Eq.refl 1
theorem pack64 : Statement .pack64 := Eq.refl 1
theorem unpack64 : Statement .unpack64 := Eq.refl 1
theorem plen64 : Statement .plen64 := Eq.refl 1
theorem pack32 : Statement .pack32 := Eq.refl 1
theorem unpack32 : Statement .unpack32 := Eq.refl 1
theorem plen32 : Statement .plen32 := Eq.refl 1

end Sys2Proof.Laws.OneRow
end

