-- ==== Sys2Proof/Tests/Slice0.lean ====
section
/-! SUPPORT. Tests of the model on the spec's own vectors (95_test_vectors.md), decoding of words written out from
30_encoding.md R63, the rows of 40_shift_table.md section 4, and for every obligation with hypotheses a state and
operands that meet them. -/

namespace Sys2Proof.Tests

open Sys2Proof.Machine

/-! ### Helpers -/

/-- The next state of an answer. -/
def after (r : Result) : Option State :=
  match r with
  | .next t => some t
  | _ => none

/-- A running state with these contents. -/
def running (val : Word) (bytes : List Byte) (len : BitVec 4) : State :=
  { State.reset with val := val, buf := Memory.put [] 0 bytes, len := len }

/-- A halted state with this cause. -/
def halted (cause : FaultCode) : State := { State.reset with fault := true, fcode := cause, val := 7#64 }

/-- The first bytes of `BUF` and `LEN` after an answer. -/
def wire (n : Nat) (r : Result) : Option (Option (List Byte) × BitVec 4) :=
  (after r).map fun t => (memRead t.buf 0 n, t.len)

/-! ### Well-formedness -/

theorem test_ldbuf_8_wellFormed : (Instr.ldbuf 8#4 0#8).wellFormed = true := by decide
theorem test_ldbuf_9_illFormed : (Instr.ldbuf 9#4 0#8).wellFormed = false := by decide
theorem test_rdbuf_15_illFormed : (Instr.rdbuf 15#4).wellFormed = false := by decide
theorem test_rdrom_0_illFormed : (Instr.rdrom 0x00#8).wellFormed = false := by decide
theorem test_rdrom_255_illFormed : (Instr.rdrom 0xFF#8).wellFormed = false := by decide

/-! ### Decoding, word by word from the patterns of R63 -/

theorem test_decode_nop : decodeTableWord 8 0b00000000 = some .nop := by decide
theorem test_decode_ldval : decode 0b00010000#8 0xFFFFFFFFFFFFFFFF#64 =
    .ok (.ldval 0xFFFFFFFFFFFFFFFF#64) := by decide
theorem test_decode_rdval : decodeTableWord 8 0b00100000 = some .rdval := by decide
theorem test_decode_ldbuf : decode 0b00110111#8 0x1AB#64 = .ok (.ldbuf 7#4 0xAB#8) := by decide
theorem test_decode_rdbuf : decodeTableWord 8 0b01001000 = some (.rdbuf 8#4) := by decide
theorem test_decode_rdlen : decodeTableWord 8 0b01010000 = some .rdlen := by decide
theorem test_decode_rdrom : decode 0b01100000#8 0x100#64 = .ok (.rdrom 0x00#8) := by decide
theorem test_decode_rdstat : decodeTableWord 8 0b01110000 = some .rdstat := by decide
theorem test_decode_pack64 : decodeTableWord 8 0b10000000 = some .pack64 := by decide
theorem test_decode_unpack64 : decodeTableWord 8 0b10010000 = some .unpack64 := by decide
theorem test_decode_plen64 : decodeTableWord 8 0b10100000 = some .plen64 := by decide
theorem test_decode_pack32 : decodeTableWord 8 0b11000000 = some .pack32 := by decide
theorem test_decode_unpack32 : decodeTableWord 8 0b11010000 = some .unpack32 := by decide
theorem test_decode_plen32 : decodeTableWord 8 0b11100000 = some .plen32 := by decide
/-- R65 (a). -/
theorem test_decode_reserved_op : decode 0xB0#8 0#64 = .error (.reservedOp 0xB#4) := by decide
/-- R65 (b): `PACK64` with `idx = 1`. -/
theorem test_decode_reserved_idx : decode 0x81#8 0#64 = .error (.reservedIdx 0x8#4 1#4) := by decide

/-! ### The ROM rows of 40_shift_table.md section 4 -/

def romListing0 : List (BitVec 24) :=
  [0x000039#24, 0x000031#24, 0x0001F2#24, 0x000029#24, 0x0001EA#24, 0x0001AA#24, 0x000FAB#24, 0x000021#24,
    0x0001E2#24, 0x0001A2#24, 0x000FA3#24, 0x000162#24, 0x000F63#24, 0x000D63#24, 0x007D64#24, 0x000019#24,
    0x0001DA#24, 0x00019A#24, 0x000F9B#24, 0x00015A#24, 0x000F5B#24, 0x000D5B#24, 0x007D5C#24, 0x00011A#24,
    0x000F1B#24, 0x000D1B#24, 0x007D1C#24, 0x000B1B#24, 0x007B1C#24, 0x006B1C#24, 0x03EB1D#24, 0x000011#24]

def romListing1 : List (BitVec 24) :=
  [0x0001D2#24, 0x000192#24, 0x000F93#24, 0x000152#24, 0x000F53#24, 0x000D53#24, 0x007D54#24, 0x000112#24,
    0x000F13#24, 0x000D13#24, 0x007D14#24, 0x000B13#24, 0x007B14#24, 0x006B14#24, 0x03EB15#24, 0x0000D2#24,
    0x000ED3#24, 0x000CD3#24, 0x007CD4#24, 0x000AD3#24, 0x007AD4#24, 0x006AD4#24, 0x03EAD5#24, 0x0008D3#24,
    0x0078D4#24, 0x0068D4#24, 0x03E8D5#24, 0x0058D4#24, 0x03D8D5#24, 0x0358D5#24, 0x1F58D6#24, 0x000009#24]

def romListing2 : List (BitVec 24) :=
  [0x0001CA#24, 0x00018A#24, 0x000F8B#24, 0x00014A#24, 0x000F4B#24, 0x000D4B#24, 0x007D4C#24, 0x00010A#24,
    0x000F0B#24, 0x000D0B#24, 0x007D0C#24, 0x000B0B#24, 0x007B0C#24, 0x006B0C#24, 0x03EB0D#24, 0x0000CA#24,
    0x000ECB#24, 0x000CCB#24, 0x007CCC#24, 0x000ACB#24, 0x007ACC#24, 0x006ACC#24, 0x03EACD#24, 0x0008CB#24,
    0x0078CC#24, 0x0068CC#24, 0x03E8CD#24, 0x0058CC#24, 0x03D8CD#24, 0x0358CD#24, 0x1F58CE#24, 0x00008A#24]

def romListing3 : List (BitVec 24) :=
  [0x000E8B#24, 0x000C8B#24, 0x007C8C#24, 0x000A8B#24, 0x007A8C#24, 0x006A8C#24, 0x03EA8D#24, 0x00088B#24,
    0x00788C#24, 0x00688C#24, 0x03E88D#24, 0x00588C#24, 0x03D88D#24, 0x03588D#24, 0x1F588E#24, 0x00068B#24,
    0x00768C#24, 0x00668C#24, 0x03E68D#24, 0x00568C#24, 0x03D68D#24, 0x03568D#24, 0x1F568E#24, 0x00468C#24,
    0x03C68D#24, 0x03468D#24, 0x1F468E#24, 0x02C68D#24, 0x1EC68E#24, 0x1AC68E#24, 0xFAC68F#24, 0x000001#24]

def romListing4 : List (BitVec 24) :=
  [0x0001C2#24, 0x000182#24, 0x000F83#24, 0x000142#24, 0x000F43#24, 0x000D43#24, 0x007D44#24, 0x000102#24,
    0x000F03#24, 0x000D03#24, 0x007D04#24, 0x000B03#24, 0x007B04#24, 0x006B04#24, 0x03EB05#24, 0x0000C2#24,
    0x000EC3#24, 0x000CC3#24, 0x007CC4#24, 0x000AC3#24, 0x007AC4#24, 0x006AC4#24, 0x03EAC5#24, 0x0008C3#24,
    0x0078C4#24, 0x0068C4#24, 0x03E8C5#24, 0x0058C4#24, 0x03D8C5#24, 0x0358C5#24, 0x1F58C6#24, 0x000082#24]

def romListing5 : List (BitVec 24) :=
  [0x000E83#24, 0x000C83#24, 0x007C84#24, 0x000A83#24, 0x007A84#24, 0x006A84#24, 0x03EA85#24, 0x000883#24,
    0x007884#24, 0x006884#24, 0x03E885#24, 0x005884#24, 0x03D885#24, 0x035885#24, 0x1F5886#24, 0x000683#24,
    0x007684#24, 0x006684#24, 0x03E685#24, 0x005684#24, 0x03D685#24, 0x035685#24, 0x1F5686#24, 0x004684#24,
    0x03C685#24, 0x034685#24, 0x1F4686#24, 0x02C685#24, 0x1EC686#24, 0x1AC686#24, 0xFAC687#24, 0x000042#24]

def romListing6 : List (BitVec 24) :=
  [0x000E43#24, 0x000C43#24, 0x007C44#24, 0x000A43#24, 0x007A44#24, 0x006A44#24, 0x03EA45#24, 0x000843#24,
    0x007844#24, 0x006844#24, 0x03E845#24, 0x005844#24, 0x03D845#24, 0x035845#24, 0x1F5846#24, 0x000643#24,
    0x007644#24, 0x006644#24, 0x03E645#24, 0x005644#24, 0x03D645#24, 0x035645#24, 0x1F5646#24, 0x004644#24,
    0x03C645#24, 0x034645#24, 0x1F4646#24, 0x02C645#24, 0x1EC646#24, 0x1AC646#24, 0xFAC647#24, 0x000443#24]

def romListing7 : List (BitVec 24) :=
  [0x007444#24, 0x006444#24, 0x03E445#24, 0x005444#24, 0x03D445#24, 0x035445#24, 0x1F5446#24, 0x004444#24,
    0x03C445#24, 0x034445#24, 0x1F4446#24, 0x02C445#24, 0x1EC446#24, 0x1AC446#24, 0xFAC447#24, 0x003444#24,
    0x03B445#24, 0x033445#24, 0x1F3446#24, 0x02B445#24, 0x1EB446#24, 0x1AB446#24, 0xFAB447#24, 0x023445#24,
    0x1E3446#24, 0x1A3446#24, 0xFA3447#24, 0x163446#24, 0xF63447#24, 0xD63447#24]

/-- The words of the spec's listing are the words the generator of R80 to R84 gives. -/
theorem test_rom_words_are_the_listing :
    ((List.range 254).map fun i => romWord (tableEntry (BitVec.ofNat 8 (i + 1)))) =
      romListing0 ++ romListing1 ++ romListing2 ++ romListing3 ++ romListing4 ++ romListing5 ++
        romListing6 ++ romListing7 := by
  decide +kernel

/-- Row 65 of the listing: count 2, positions 1 and 7. -/
theorem test_rom_row_41 : rom 0x41#8 = some ⟨2, [1, 7]⟩ := by decide

/-! ### Commands: 95_test_vectors.md sections 2 to 7 -/

theorem test_nop : (after (exec .nop (running 5#64 [1#8] 2#4))).map (fun t => (t.val, t.buf, t.len, t.fault)) =
    some (5#64, [(0, 1#8)], 2#4, false) := by decide
theorem test_ldval : (after (exec (.ldval 0xFFFFFFFFFFFFFFFF#64) (running 5#64 [] 2#4))).map State.val =
    some 0xFFFFFFFFFFFFFFFF#64 := by decide
theorem test_rdval : (after (exec .rdval (running 0x100#64 [] 0#4))).map State.rdata =
    some 0x100#64 := by decide
/-- `LDBUF 8, #0x1AB`: `BUF[8] = 0xAB`. -/
theorem test_ldbuf_8 : (after (step { State.reset with port := [commandInput 0x38#8 0x1AB#64] })).map
    (fun t => memRead t.buf 8 1) = some (some [0xAB#8]) := by decide
/-- `LDBUF 9`: `BUF_INDEX`, `BUF` unchanged. -/
theorem test_ldbuf_9_faults : (after (exec (.ldbuf 9#4 0xAB#8) (running 0#64 [0x40#8] 0#4))).map
    (fun t => (t.fault, t.fcode, t.buf)) = some (true, .bufIndex, [(0, 0x40#8)]) := by decide
/-- A byte written as 0 is no longer listed: the canonical form. -/
theorem test_ldbuf_zero_unlists : (after (exec (.ldbuf 0#4 0x00#8) (running 0#64 [0x40#8] 0#4))).map
    State.buf = some [] := by decide
theorem test_rdbuf_8 : (after (exec (.rdbuf 8#4)
    { State.reset with buf := [(8, 0xAB#8)] })).map State.rdata = some 0xAB#64 := by decide
theorem test_rdbuf_15_faults : (after (exec (.rdbuf 15#4) State.reset)).map
    (fun t => (t.fault, t.fcode)) = some (true, .bufIndex) := by decide
theorem test_rdlen : (after (exec .rdlen (running 0#64 [] 9#4))).map State.rdata = some 9#64 := by decide
/-- `RDROM #0xFFFFFFFFFFFFFF41`: the upper bits of `wdata` are ignored. -/
theorem test_rdrom_41 : (after (step { State.reset with
    port := [commandInput 0x60#8 0xFFFFFFFFFFFFFF41#64] })).map State.rdata = some 0x1CA#64 := by decide
theorem test_rdrom_0_faults : (after (exec (.rdrom 0x00#8) State.reset)).map
    (fun t => (t.fault, t.fcode)) = some (true, .romIndex) := by decide
theorem test_rdstat_halted : (after (exec .rdstat (halted .bufIndex))).map State.rdata = some 5#64 := by decide
theorem test_rdstat_running : (after (exec .rdstat State.reset)).map State.rdata = some 0#64 := by decide
theorem test_pack64_256 : wire 2 (exec .pack64 (running 0x100#64 [] 0#4)) =
    some (some [0x40#8, 0x01#8], 2#4) := by decide
theorem test_pack64_seven_bytes : wire 8 (exec .pack64 (running 0x0102030405060700#64 [] 0#4)) =
    some (some [0x7F#8, 7#8, 6#8, 5#8, 4#8, 3#8, 2#8, 1#8], 8#4) := by decide
theorem test_unpack64_41 : (after (exec .unpack64 (running 0#64 [0x41#8, 0x02#8, 0x80#8] 0#4))).map
    (fun t => (t.val, t.len)) = some (0x8000000000000200#64, 3#4) := by decide
theorem test_unpack64_ff : (after (exec .unpack64
    (running 0#64 [0xFF#8, 1#8, 2#8, 3#8, 4#8, 5#8, 6#8, 7#8, 8#8] 0#4))).map
    (fun t => (t.val, t.len)) = some (0x0807060504030201#64, 9#4) := by decide
theorem test_plen64_7f : (after (exec .plen64 (running 0#64 [0x7F#8] 0#4))).map State.len = some 8#4 := by decide
theorem test_plen64_ff : (after (exec .plen64 (running 0#64 [0xFF#8] 0#4))).map State.len = some 9#4 := by decide
/-- The upper half of `VAL` is ignored; the pad nibble is 0. -/
theorem test_pack32_321 : wire 3 (exec .pack32 (running 0xDEADBEEF00000321#64 [] 0#4)) =
    some (some [0xE0#8, 0x21#8, 0x03#8], 3#4) := by decide
theorem test_pack32_seven_nibbles : wire 5 (exec .pack32 (running 0x499602D2#64 [] 0#4)) =
    some (some [0xEF#8, 0xD2#8, 0x62#8, 0x99#8, 0x04#8], 5#4) := by decide
/-- The pad half is ignored and the upper half of `VAL` cleared. -/
theorem test_unpack32_pad : (after (exec .unpack32
    (running 0xFFFFFFFFFFFFFFFF#64 [0xE0#8, 0x21#8, 0xF3#8] 0#4))).map (fun t => (t.val, t.len)) =
    some (0x321#64, 3#4) := by decide
theorem test_unpack32_ff : (after (exec .unpack32
    (running 0#64 [0xFF#8, 0x78#8, 0x56#8, 0x34#8, 0x12#8] 0#4))).map (fun t => (t.val, t.len)) =
    some (0x12345678#64, 5#4) := by decide
theorem test_plen32_e0 : (after (exec .plen32 (running 0#64 [0xE0#8] 0#4))).map State.len = some 3#4 := by decide
theorem test_plen32_1f : (after (exec .plen32 (running 0#64 [0x1F#8] 0#4))).map State.len = some 4#4 := by decide

/-! ### Steps: faults, halt, reset, idle -/

theorem test_reserved_word_faults : (after (step { State.reset with port := [commandInput 0xF7#8 0#64] })).map
    (fun t => (t.fault, t.fcode)) = some (true, .reservedCmd) := by decide
/-- The halted block ignores a bad command and keeps the first cause. -/
theorem test_halted_keeps_first_cause : (after (step { halted .reservedCmd with
    port := [commandInput 0x60#8 0#64] })).map (fun t => (t.fault, t.fcode, t.val)) =
    some (true, .reservedCmd, 7#64) := by decide
theorem test_halted_ignores_71 : (after (step { halted .reservedCmd with
    port := [commandInput 0x71#8 0#64] })).map (fun t => (t.fcode, t.val)) =
    some (.reservedCmd, 7#64) := by decide
theorem test_reset_leaves_halt : (after (step { halted .romIndex with
    port := [⟨true, true, 0xB0#8, 0#64⟩] })).map (fun t => (t.fault, t.fcode, t.val, t.len)) =
    some (false, .noCause, 0#64, 0#4) := by decide
/-- The first draw of the reset step is the one `State.reset` holds. -/
theorem test_resetStep_is_reset : resetStep { State.reset with draws := 0 } = State.reset := rfl
/-- A row's word placed with `withFetchWord` is the first command after reset. -/
theorem test_withFetchWord : (after (step (State.reset.withFetchWord 8 0x90))).map
    (fun t => (t.val, t.len, t.port)) = some (0#64, 1#4, []) := by decide
/-- `LDWIRE 0x41, 0x02` expands to `LDBUF 0`, `LDBUF 1` (R69). -/
theorem test_ldwire : assembleLine (.ldwire [0x41#8, 0x02#8]) =
    some [(0x30#8, 0x41#64), (0x31#8, 0x02#64)] := by decide
theorem test_rdwire_10 : assembleLine (.rdwire 10) = none := by decide
/-- The read of a one-command program (R70). -/
theorem test_run_rdlen : (match runProgram [(0x50#8, 0#64)] (running 0#64 [] 3#4) with
    | .next r => some r.2 | _ => none) = some [3#64] := by decide

/-! ### Witnesses: a state and operands that meet the hypotheses of each obligation -/

/-- A running state presented a command (StepRunsTheDecodedCommand, CommandsFaultExactlyByTheTable: no fault). -/
theorem witness_command_presented :
    let s := { running 1#64 [0x40#8, 0x01#8] 2#4 with port := [commandInput 0x90#8 0#64] }
    let p := commandInput 0x90#8 0#64
    s.port = [p] ∧ p.rst = false ∧ p.cmdValid = true ∧ s.fault = false ∧
      decode p.cmd p.wdata = .ok .unpack64 ∧ causeOf p.cmd p.wdata = .noCause := by decide
/-- CommandsFaultExactlyByTheTable: each cause is met. -/
theorem witness_each_cause : causeOf 0xBF#8 0#64 = .reservedCmd ∧ causeOf 0x01#8 0#64 = .reservedCmd ∧
    causeOf 0x39#8 0#64 = .bufIndex ∧ causeOf 0x4F#8 0#64 = .bufIndex ∧ causeOf 0x60#8 0#64 = .romIndex ∧
    causeOf 0x60#8 0x1FF#64 = .romIndex ∧ causeOf 0x60#8 1#64 = .noCause ∧
    causeOf 0x38#8 0#64 = .noCause := by decide
/-- DecodedPairIsItsEncoding, with bits of `wdata` that the command ignores. -/
theorem witness_decoded_pair : decode 0x31#8 0x1AB#64 = .ok (.ldbuf 1#4 0xAB#8) := by decide
/-- DecoderRejectsExactlyReservedWords: both sides at the ends of R65's ranges. -/
theorem witness_reserved_ends : reservedWord 0xB0#8 = true ∧ reservedWord 0xFF#8 = true ∧
    reservedWord 0xE1#8 = true ∧ reservedWord 0x4F#8 = false ∧ reservedWord 0xE0#8 = false := by decide
/-- ResetStepGivesTheResetState, from a halted state. -/
theorem witness_reset_presented :
    let p : PortIn := ⟨true, false, 0xB0#8, 5#64⟩
    ({ halted .romIndex with port := [p] } : State).port = [p] ∧ p.rst = true := by decide
/-- IdleStepChangesNoState. -/
theorem witness_idle_presented :
    ({ running 1#64 [] 2#4 with port := [idleInput] } : State).port = [idleInput] ∧
      idleInput.rst = false ∧ idleInput.cmdValid = false := by decide
/-- ExhaustedHostListIsIdle. -/
theorem witness_exhausted : (running 1#64 [2#8] 2#4).port = [] := by decide
/-- EveryStepKeepsTheInvariant: a state that is not reset, with a next state. -/
theorem witness_invariant : (running 1#64 [0x40#8, 0x01#8] 2#4).Inv ∧
    ∃ t, step (running 1#64 [0x40#8, 0x01#8] 2#4) = .next t :=
  ⟨⟨by decide, by decide, by decide⟩, _, rfl⟩
/-- FaultEntryWritesNothingElse. -/
theorem witness_fault_entry :
    let s := { running 1#64 [0x40#8] 2#4 with port := [commandInput 0xB0#8 0#64] }
    s.fault = false ∧ ∃ t, step s = .next t ∧ t.fault = true := ⟨rfl, _, rfl, rfl⟩
/-- HaltedBlockExecutesOnlyRdstat, first clause: another command, an idle step. -/
theorem witness_halted_other :
    let p := commandInput 0x71#8 0#64
    let s := { halted .reservedCmd with port := [p] }
    s.port = [p] ∧ p.rst = false ∧ s.fault = true ∧ ¬ (p.cmdValid = true ∧ p.cmd = 0x70#8) ∧
      ¬ (idleInput.cmdValid = true ∧ idleInput.cmd = 0x70#8) := by decide
/-- HaltedBlockExecutesOnlyRdstat, second clause. -/
theorem witness_halted_rdstat :
    let p := commandInput 0x70#8 9#64
    let s := { halted .reservedCmd with port := [p] }
    s.port = [p] ∧ p.rst = false ∧ s.fault = true ∧ p.cmdValid = true ∧ p.cmd = 0x70#8 := by decide
/-- OnlyResetClearsFault: both of its outcomes. -/
theorem witness_only_reset :
    (∃ t, step { halted .bufIndex with port := [⟨true, false, 0#8, 0#64⟩] } = .next t ∧ t.fault = false) ∧
      ∃ t, step { halted .bufIndex with port := [commandInput 0x80#8 0#64] } = .next t ∧ t.fault = true :=
  ⟨⟨_, rfl, rfl⟩, _, rfl, rfl⟩
/-- CodecCommandsNeverFault and the statements of the single codec commands. -/
theorem witness_codec : isCodec .pack64 = true ∧ isCodec .plen32 = true ∧
    (running 3#64 [0x55#8] 0#4).fault = false := by decide
/-- EachStateHasOnlyItsWriters: a command outside every exception has a next state. -/
theorem witness_writers : (∃ t, exec .nop (running 3#64 [0x55#8] 4#4) = .next t) ∧ isCodec .nop = false :=
  ⟨⟨_, rfl⟩, rfl⟩
/-- ReadsAreIdempotent. -/
theorem witness_read : (Instr.rdbuf 8#4).wellFormed = true ∧
    ∃ t, exec (.rdbuf 8#4) (running 3#64 [0x55#8] 4#4) = .next t := ⟨by decide, _, rfl⟩
/-- The running state of NopLeavesTheState, LdvalLoadsVal, RdvalDrivesVal, RdlenDrivesLen and of the other commands'
statements. -/
theorem witness_running : (running 3#64 [0x55#8] 4#4).fault = false := by decide
/-- LdbufStoresTheByte, RdbufDrivesTheByte: both clauses at the ends of their ranges. -/
theorem witness_index_ends : (0#4).toNat ≤ 8 ∧ (8#4).toNat ≤ 8 ∧ 9 ≤ (9#4).toNat ∧ 9 ≤ (15#4).toNat := by decide
/-- RdstatDrivesTheStatus: the agreement of R25 holds running and halted. -/
theorem witness_status : (State.reset.fault = false ↔ State.reset.fcode = .noCause) ∧
    ((halted .romIndex).fault = false ↔ (halted .romIndex).fcode = .noCause) := by decide
/-- RomHasRowsOneTo254, CountIsPopcount, RdromDrivesTheRow: the ends of the ranges of `b`. -/
theorem witness_rom_ends : rom 0x00#8 = none ∧ rom 0x01#8 = some ⟨1, [7]⟩ ∧
    rom 0xFE#8 = some ⟨7, [0, 1, 2, 3, 4, 5, 6]⟩ ∧ rom 0xFF#8 = none ∧
    0x01#8 ≠ 0x00#8 ∧ 0x01#8 ≠ 0xFF#8 ∧ 0xFE#8 ≠ 0x00#8 ∧ 0xFE#8 ≠ 0xFF#8 := by decide
/-- Encode64FastPaths: every byte non-zero. -/
theorem witness_full64 : ∀ k, k ≤ 7 → byteGroup 0x0102030405060708#64 k ≠ 0x00#8 := by
  intro k hk
  interval_cases k <;> decide
/-- Encode32OfFullBitmap: every nibble non-zero. -/
theorem witness_full32 : ∀ k, k ≤ 7 → nibGroup 0x12345678#32 k ≠ 0x0#4 := by
  intro k hk
  interval_cases k <;> decide
/-- Decode64IsOneFormula, Decode64SumIsExact, CanonicalExactly64: a canonical payload, one that is not, the fast
paths. -/
theorem witness_payload64 : payloadLen64 0x41#8 ≤ [0x02#8, 0x80#8].length ∧
    encode64 (decode64 0x41#8 [0x02#8, 0x80#8]) = [0x41#8, 0x02#8, 0x80#8] ∧
    payloadLen64 0x41#8 ≤ [0x00#8, 0x80#8].length ∧
    encode64 (decode64 0x41#8 [0x00#8, 0x80#8]) = [0x01#8, 0x80#8] ∧
    payloadLen64 0x00#8 ≤ ([] : List Byte).length ∧
    payloadLen64 0xFF#8 ≤ (List.replicate 8 1#8).length := by decide
/-- Decode32IsOneFormula, CanonicalExactly32: a canonical payload, a zero nibble, a non-zero pad of an odd count. -/
theorem witness_payload32 : payloadLen32 0xE0#8 ≤ [0x21#8, 0x03#8].length ∧
    encode32 (decode32 0xE0#8 [0x21#8, 0x03#8]) = [0xE0#8, 0x21#8, 0x03#8] ∧
    encode32 (decode32 0xE0#8 [0x01#8, 0x03#8]) = [0xA0#8, 0x31#8] ∧
    encode32 (decode32 0xE0#8 [0x21#8, 0xF3#8]) = [0xE0#8, 0x21#8, 0x03#8] ∧
    popcount 0xE0#8 % 2 = 1 := by decide
/-- Payload32PacksTwoNibbles: a payload byte of an odd count. -/
theorem witness_payload32_byte : 1 < (payload32 0x321#32).length := by decide
/-- Unpack64ReadsOnlyTheEncoding, Unpack32ReadsOnlyTheEncoding: two states that differ above the encoding. -/
theorem witness_same_encoding :
    let s := running 0#64 [0x40#8, 0x01#8, 0xAA#8] 0#4
    let s' := running 0#64 [0x40#8, 0x01#8, 0xBB#8] 0#4
    s.buf.byte 2 ≠ s'.buf.byte 2 ∧ payloadLen64 (s.buf.byte 0) = 1 ∧ payloadLen32 (s.buf.byte 0) = 1 ∧
      s.buf.byte 0 = s'.buf.byte 0 ∧ s.buf.byte 1 = s'.buf.byte 1 := by decide
/-- Encoding64IsPrefixFree: equal concatenations. -/
theorem witness_prefix : encode64 0x100#64 ++ [9#8] = [0x40#8, 0x01#8, 9#8] := by decide
/-- Pack64StoresTheEncoding, Pack32StoresTheEncoding: a tail index in range. -/
theorem witness_tail : (encode64 0#64).length ≤ 1 ∧ (encode64 0xFFFFFFFFFFFFFF#64).length ≤ 8 ∧
    (encode32 0#32).length ≤ 4 := by decide

end Sys2Proof.Tests
end

section
/-! PROOFS. The state (10_state.md): what a command can do to each piece of it, what a step can do, and the invariant
that every step keeps. -/

namespace Sys2Proof.Machine

/-! ### The commands without an operand check or an access to `BUF` -/

theorem exec_nop_running {s : State} (h : s.fault = false) : exec .nop s = .next (driveAny s) :=
  whenRunning_running h _

theorem exec_ldval_running (imm : Word) {s : State} (h : s.fault = false) :
    exec (.ldval imm) s = .next (driveAny { s with val := imm }) :=
  whenRunning_running h _

theorem exec_rdval_running {s : State} (h : s.fault = false) :
    exec .rdval s = .next (drive s.val s) :=
  whenRunning_running h _

theorem exec_rdlen_running {s : State} (h : s.fault = false) :
    exec .rdlen s = .next (drive (s.len.setWidth 64) s) :=
  whenRunning_running h _

/-- `RDSTAT` executes running or halted (R136). -/
theorem exec_rdstat (s : State) : exec .rdstat s = .next (drive (statusWord s) s) := rfl

theorem exec_plen64_running {s : State} (h : s.fault = false) :
    exec .plen64 s =
      .next (driveAny { s with len := BitVec.ofNat 4 (1 + payloadLen64 (s.buf.byte 0)) }) :=
  whenRunning_running h _

theorem exec_plen32_running {s : State} (h : s.fault = false) :
    exec .plen32 s =
      .next (driveAny { s with len := BitVec.ofNat 4 (1 + payloadLen32 (s.buf.byte 0)) }) :=
  whenRunning_running h _

/-! ### What a command can do to the state -/

/-- The command is one that drives `rdata` with data (R32). -/
def isRead : Instr → Bool
  | .rdval | .rdbuf _ | .rdlen | .rdrom _ | .rdstat => true
  | .nop | .ldval _ | .ldbuf _ _ | .pack64 | .unpack64 | .plen64 | .pack32 | .unpack32 | .plen32 => false

/-- `ExecEffect s i t`: the ways in which the command `i` can take the state `s` to `t`, one constructor per row of the
access matrix (R32) and per fault of an operand (R151). Which value is driven or written is left to the lemmas about
the single commands. -/
inductive ExecEffect (s : State) : Instr → State → Prop
  | halted {i : Instr} (hs : s.fault = true) (hi : i ≠ .rdstat) : ExecEffect s i (noEffect s)
  | nop (hs : s.fault = false) : ExecEffect s .nop (driveAny s)
  | read {i : Instr} (hi : isRead i = true) (v : Word) : ExecEffect s i (drive v s)
  | ldval (hs : s.fault = false) (imm : Word) : ExecEffect s (.ldval imm) (driveAny { s with val := imm })
  | ldbuf (hs : s.fault = false) {idx : Nibble} (imm : Byte) (hidx : idx.toNat < Config.bufSize) :
      ExecEffect s (.ldbuf idx imm) (driveAny { s with buf := s.buf.put idx.toNat [imm] })
  | ldbufFault (hs : s.fault = false) {idx : Nibble} (imm : Byte) (hidx : ¬ idx.toNat < Config.bufSize) :
      ExecEffect s (.ldbuf idx imm) (raiseFault .bufIndex s)
  | rdbufFault (hs : s.fault = false) {idx : Nibble} (hidx : ¬ idx.toNat < Config.bufSize) :
      ExecEffect s (.rdbuf idx) (raiseFault .bufIndex s)
  | rdromFault (hs : s.fault = false) {row : Byte} (hrow : row = 0x00#8 ∨ row = 0xFF#8) :
      ExecEffect s (.rdrom row) (raiseFault .romIndex s)
  | pack (hs : s.fault = false) {i : Instr} (hi : i = .pack64 ∨ i = .pack32) {m : Memory} (hm : m.wf)
      {n : Nat} (hn : n ≤ 9) : ExecEffect s i (driveAny { s with buf := m, len := BitVec.ofNat 4 n })
  | unpack (hs : s.fault = false) {i : Instr} (hi : i = .unpack64 ∨ i = .unpack32) (v : Word)
      {n : Nat} (hn : n ≤ 9) : ExecEffect s i (driveAny { s with val := v, len := BitVec.ofNat 4 n })
  | plen (hs : s.fault = false) {i : Instr} (hi : i = .plen64 ∨ i = .plen32)
      {n : Nat} (hn : n ≤ 9) : ExecEffect s i (driveAny { s with len := BitVec.ofNat 4 n })

/-- A packed or unpacked length, 1 for the bitmap and at most 8 for the payload, is in the range of `LEN` (R22). -/
theorem one_add_payloadLen64_le (b : Byte) : 1 + payloadLen64 b ≤ 9 := by
  have := payloadLen64_le b
  omega

theorem one_add_payloadLen32_le (b : Byte) : 1 + payloadLen32 b ≤ 9 := by
  have := payloadLen32_le b
  omega

/-- A running block answers every command, in one of the ways of `ExecEffect`. -/
theorem exec_effect_running (i : Instr) {s : State} (hs : s.fault = false) :
    ∃ t, exec i s = .next t ∧ ExecEffect s i t := by
  cases i with
  | nop => exact ⟨_, exec_nop_running hs, .nop hs⟩
  | ldval imm => exact ⟨_, exec_ldval_running imm hs, .ldval hs imm⟩
  | rdval => exact ⟨_, exec_rdval_running hs, .read rfl _⟩
  | ldbuf idx imm =>
    by_cases hidx : idx.toNat < Config.bufSize
    · exact ⟨_, exec_ldbuf_legal imm hs hidx, .ldbuf hs imm hidx⟩
    · exact ⟨_, exec_ldbuf_illegal imm hs hidx, .ldbufFault hs imm hidx⟩
  | rdbuf idx =>
    by_cases hidx : idx.toNat < Config.bufSize
    · exact ⟨_, exec_rdbuf_legal hs hidx, .read rfl _⟩
    · exact ⟨_, exec_rdbuf_illegal hs hidx, .rdbufFault hs hidx⟩
  | rdlen => exact ⟨_, exec_rdlen_running hs, .read rfl _⟩
  | rdrom row =>
    by_cases hrow : row = 0x00#8 ∨ row = 0xFF#8
    · exact ⟨_, exec_rdrom_illegal hs hrow, .rdromFault hs hrow⟩
    · exact ⟨_, exec_rdrom_legal hs (not_or.mp hrow), .read rfl _⟩
  | rdstat => exact ⟨_, exec_rdstat s, .read rfl _⟩
  | pack64 =>
    have hlen := encode64_length_le s.val
    obtain ⟨m, hexec, hm, -⟩ := storeEncoding_spec (s := s) hlen (Nat.le_refl 9)
    exact ⟨_, (exec_pack64_running hs).trans hexec, .pack hs (.inl rfl) hm hlen⟩
  | unpack64 => exact ⟨_, exec_unpack64_running hs, .unpack hs (.inl rfl) _ (one_add_payloadLen64_le _)⟩
  | plen64 => exact ⟨_, exec_plen64_running hs, .plen hs (.inl rfl) (one_add_payloadLen64_le _)⟩
  | pack32 =>
    have hlen := encode32_length_le (s.val.setWidth 32)
    obtain ⟨m, hexec, hm, -⟩ := storeEncoding_spec (s := s) hlen (by decide)
    exact ⟨_, (exec_pack32_running hs).trans hexec, .pack hs (.inr rfl) hm (hlen.trans (by decide))⟩
  | unpack32 => exact ⟨_, exec_unpack32_running hs, .unpack hs (.inr rfl) _ (one_add_payloadLen32_le _)⟩
  | plen32 => exact ⟨_, exec_plen32_running hs, .plen hs (.inr rfl) (one_add_payloadLen32_le _)⟩

/-- Every command answers a next state, running or halted, in one of the ways of `ExecEffect`. -/
theorem exec_effect (i : Instr) (s : State) : ∃ t, exec i s = .next t ∧ ExecEffect s i t := by
  cases hs : s.fault with
  | false => exact exec_effect_running i hs
  | true =>
    by_cases hi : i = .rdstat
    · subst hi
      exact ⟨_, exec_rdstat s, .read rfl _⟩
    · exact ⟨_, exec_halted hs hi, .halted hs hi⟩

/-- Inversion of `exec`: the state a command answers is one that `ExecEffect` lists. -/
theorem ExecEffect.of_exec {i : Instr} {s t : State} (h : exec i s = .next t) : ExecEffect s i t := by
  obtain ⟨t', ht', heffect⟩ := exec_effect i s
  cases ht'.symm.trans h
  exact heffect

/-! ### The access matrix (10_state.md R32) -/

/-- `VAL` has three writers (R21). -/
theorem exec_keeps_val {i : Instr} {s t : State} (h : exec i s = .next t) (hldval : ∀ imm, i ≠ .ldval imm)
    (hunpack64 : i ≠ .unpack64) (hunpack32 : i ≠ .unpack32) : t.val = s.val := by
  cases ExecEffect.of_exec h with
  | ldval _ imm => exact absurd rfl (hldval imm)
  | unpack _ hi => exact absurd hi (not_or.mpr ⟨hunpack64, hunpack32⟩)
  | _ => rfl

/-- `BUF` has three writers (R23). -/
theorem exec_keeps_buf {i : Instr} {s t : State} (h : exec i s = .next t)
    (hldbuf : ∀ idx imm, i ≠ .ldbuf idx imm) (hpack64 : i ≠ .pack64) (hpack32 : i ≠ .pack32) :
    t.buf = s.buf := by
  cases ExecEffect.of_exec h with
  | ldbuf _ imm => exact absurd rfl (hldbuf _ imm)
  | pack _ hi => exact absurd hi (not_or.mpr ⟨hpack64, hpack32⟩)
  | _ => rfl

/-- `LEN` is written by codec commands only (R22). -/
theorem exec_keeps_len {i : Instr} {s t : State} (h : exec i s = .next t) (hcodec : isCodec i = false) :
    t.len = s.len := by
  cases ExecEffect.of_exec h with
  | pack _ hi => rcases hi with rfl | rfl <;> cases hcodec
  | unpack _ hi => rcases hi with rfl | rfl <;> cases hcodec
  | plen _ hi => rcases hi with rfl | rfl <;> cases hcodec
  | _ => rfl

/-- `FAULT` and `FCODE` are written by the commands with an operand check only (R24, R25). -/
theorem exec_keeps_fault {i : Instr} {s t : State} (h : exec i s = .next t)
    (hldbuf : ∀ idx imm, i ≠ .ldbuf idx imm) (hrdbuf : ∀ idx, i ≠ .rdbuf idx)
    (hrdrom : ∀ row, i ≠ .rdrom row) : t.fault = s.fault ∧ t.fcode = s.fcode := by
  cases ExecEffect.of_exec h with
  | ldbufFault _ imm => exact absurd rfl (hldbuf _ imm)
  | rdbufFault => exact absurd rfl (hrdbuf _)
  | rdromFault => exact absurd rfl (hrdrom _)
  | _ => exact ⟨rfl, rfl⟩

/-- No command touches the host's inputs. -/
theorem exec_keeps_port {i : Instr} {s t : State} (h : exec i s = .next t) : t.port = s.port := by
  cases ExecEffect.of_exec h <;> rfl

/-- Settles O19, one frame lemma per piece of state. -/
theorem eachStateHasOnlyItsWriters : Obligations.EachStateHasOnlyItsWriters := by
  intro i s t h
  refine ⟨exec_keeps_val h, fun hldbuf hpack64 hpack32 a => ?_, exec_keeps_len h, exec_keeps_fault h,
    exec_keeps_port h⟩
  rw [exec_keeps_buf h hldbuf hpack64 hpack32]

/-! ### What a step can do -/

/-- The inputs of a step are the first that the host has lined up. -/
theorem presented_of_port {s : State} {p : PortIn} {rest : List PortIn} (h : s.port = p :: rest) :
    presented s = p := by
  simp [presented, h]

theorem takeInput_of_port {s : State} {p : PortIn} {rest : List PortIn} (h : s.port = p :: rest) :
    takeInput s = { s with port := rest } := by
  simp [takeInput, h]

/-- A command presented to a running block is run when it decodes (R153). -/
theorem actionOf_run {p : PortIn} {i : Instr} (hrst : p.rst = false) (hvalid : p.cmdValid = true)
    (hdecode : decode p.cmd p.wdata = .ok i) : actionOf p false = .run i := by
  simp [actionOf, hrst, hvalid, hdecode]

/-- A step whose action is a command is that command on the state with the input taken. -/
theorem step_of_run {s : State} {i : Instr} (h : actionOf (presented s) s.fault = .run i) :
    step s = exec i (takeInput s) := by
  simp only [step, h]

/-- Inversion of `step`: the state it answers, by the action the check order of R153 selects. -/
theorem step_next_cases {s t : State} (h : step s = .next t) :
    (actionOf (presented s) s.fault = .reset ∧ t = resetStep (takeInput s)) ∨
    ((actionOf (presented s) s.fault = .idle ∨ actionOf (presented s) s.fault = .halted) ∧
      t = noEffect (takeInput s)) ∨
    (actionOf (presented s) s.fault = .reserved ∧ t = raiseFault .reservedCmd (takeInput s)) ∨
    ∃ i, actionOf (presented s) s.fault = .run i ∧ exec i (takeInput s) = .next t := by
  unfold step at h
  cases ha : actionOf (presented s) s.fault <;> rw [ha] at h
  case reset => cases h; exact .inl ⟨rfl, rfl⟩
  case idle => cases h; exact .inr (.inl ⟨.inl rfl, rfl⟩)
  case halted => cases h; exact .inr (.inl ⟨.inr rfl, rfl⟩)
  case reserved => cases h; exact .inr (.inr (.inl ⟨rfl, rfl⟩))
  case run i => exact .inr (.inr (.inr ⟨i, rfl, h⟩))

/-- Settles O6: the presented input selects the action `run i`. -/
theorem stepRunsTheDecodedCommand : Obligations.StepRunsTheDecodedCommand := by
  intro s p rest i hport hrst hvalid hfault hdecode
  have haction : actionOf (presented s) s.fault = .run i := by
    rw [presented_of_port hport, hfault, actionOf_run hrst hvalid hdecode]
  rw [step_of_run haction, takeInput_of_port hport]

/-! ### The invariant under each update -/

namespace State.Inv

theorem drive {s : State} (h : s.Inv) (v : Word) : (drive v s).Inv :=
  ⟨h.bufCanonical, h.lenRange, h.faultCause⟩

theorem driveAny {s : State} (h : s.Inv) : (driveAny s).Inv :=
  ⟨h.bufCanonical, h.lenRange, h.faultCause⟩

theorem noEffect {s : State} (h : s.Inv) : (noEffect s).Inv := h.driveAny

theorem takeInput {s : State} (h : s.Inv) : (takeInput s).Inv :=
  ⟨h.bufCanonical, h.lenRange, h.faultCause⟩

theorem setVal {s : State} (h : s.Inv) (v : Word) : { s with val := v }.Inv :=
  ⟨h.bufCanonical, h.lenRange, h.faultCause⟩

theorem setBuf {s : State} (h : s.Inv) {m : Memory} (hm : m.wf) : { s with buf := m }.Inv :=
  ⟨hm, h.lenRange, h.faultCause⟩

/-- A length of at most 9 fits the 4 bits of `LEN`, so it is stored as it is (R22). -/
theorem setLen {s : State} (h : s.Inv) {n : Nat} (hn : n ≤ 9) :
    { s with len := BitVec.ofNat 4 n }.Inv := by
  have hlen : (BitVec.ofNat 4 n).toNat ≤ 9 := (Nat.mod_le n _).trans hn
  exact ⟨h.bufCanonical, hlen, h.faultCause⟩

/-- Fault entry records a cause (R152), so `FAULT` and `FCODE` go on agreeing (R25). -/
theorem raiseFault {s : State} (h : s.Inv) {c : FaultCode} (hc : c ≠ .noCause) : (raiseFault c s).Inv :=
  ⟨h.bufCanonical, h.lenRange, by simp [hc]⟩

end State.Inv

/-- The reset state meets the invariant, and so does the state after a reset step, which has the same `BUF`, `LEN`,
`FAULT` and `FCODE`. -/
theorem State.inv_reset : State.reset.Inv :=
  ⟨by decide, by decide, by decide⟩

theorem State.inv_resetStep (s : State) : (resetStep s).Inv :=
  ⟨inv_reset.bufCanonical, inv_reset.lenRange, inv_reset.faultCause⟩

/-- Every command keeps the invariant. -/
theorem exec_keeps_inv {i : Instr} {s t : State} (hinv : s.Inv) (h : exec i s = .next t) : t.Inv := by
  cases ExecEffect.of_exec h with
  | halted => exact hinv.noEffect
  | nop => exact hinv.driveAny
  | read _ v => exact hinv.drive v
  | ldval _ imm => exact (hinv.setVal imm).driveAny
  | ldbuf _ imm => exact (hinv.setBuf (Memory.wf_put ..)).driveAny
  | ldbufFault | rdbufFault | rdromFault => exact hinv.raiseFault (by decide)
  | pack _ _ hm hn => exact ((hinv.setBuf hm).setLen hn).driveAny
  | unpack _ _ v hn => exact ((hinv.setVal v).setLen hn).driveAny
  | plen _ _ hn => exact (hinv.setLen hn).driveAny

/-- Settles O12, by the four things a step can do; what a command does is `exec_keeps_inv`. -/
theorem everyStepKeepsTheInvariant : Obligations.EveryStepKeepsTheInvariant := by
  intro s t hinv h
  obtain ⟨-, rfl⟩ | ⟨-, rfl⟩ | ⟨-, rfl⟩ | ⟨i, -, hexec⟩ := step_next_cases h
  · exact State.inv_resetStep _
  · exact hinv.takeInput.noEffect
  · exact hinv.takeInput.raiseFault (by decide)
  · exact exec_keeps_inv hinv.takeInput hexec

/-- Settles O13. -/
theorem resetMeetsTheInvariant : Obligations.ResetMeetsTheInvariant := State.inv_reset

/-- Settles O8: the five values of R31 as `State.reset` lists them, `BUF` read byte by byte. -/
theorem resetValues : Obligations.ResetValues := by
  have hbuf : memRead State.reset.buf 0 9 = some (List.replicate 9 0x00#8) := by decide
  exact ⟨rfl, hbuf, rfl, rfl, rfl⟩

end Sys2Proof.Machine
end

section
/-! PROOFS. The memory (20_memory.md): no access leaves `BUF`, so no step stops; reads have no side effect; the payload
lengths. -/

namespace Sys2Proof.Machine

/-- Settles O11: four of the five actions of a step answer outright, and a command answers by `exec_effect`, where the
bounds on lengths and indices keep every access inside `BUF` (R43). -/
theorem everyStepAnswersANextState : Obligations.EveryStepAnswersANextState := by
  intro s
  unfold step
  cases actionOf (presented s) s.fault with
  | reset => exact ⟨_, rfl⟩
  | idle => exact ⟨_, rfl⟩
  | halted => exact ⟨_, rfl⟩
  | reserved => exact ⟨_, rfl⟩
  | run i =>
    obtain ⟨t, hexec, -⟩ := exec_effect i (takeInput s)
    exact ⟨t, hexec⟩

/-! ### Reads (20_memory.md R49) -/

theorem legalBufIndex_iff {idx : Nibble} : legalBufIndex idx = true ↔ idx.toNat < Config.bufSize :=
  decide_eq_true_iff

theorem legalRomIndex_iff {row : Byte} : legalRomIndex row = true ↔ row ≠ 0x00#8 ∧ row ≠ 0xFF#8 := by
  simp [legalRomIndex]

/-- A running read with legal operands drives a word `w` and changes nothing else; and `w` is not a function of what
`rdata` held, so from the same state with any `v` on `rdata` it drives the same word. -/
theorem exec_read_running {i : Instr} {s : State} (hread : isRead i = true) (hwf : i.wellFormed = true)
    (hs : s.fault = false) :
    ∃ w, exec i s = .next (drive w s) ∧ ∀ v, exec i (drive v s) = .next (drive w s) := by
  cases i with
  | rdval => exact ⟨_, exec_rdval_running hs, fun v => exec_rdval_running (s := drive v s) hs⟩
  | rdbuf idx =>
    have hidx := legalBufIndex_iff.mp hwf
    exact ⟨_, exec_rdbuf_legal hs hidx, fun v => exec_rdbuf_legal (s := drive v s) hs hidx⟩
  | rdlen => exact ⟨_, exec_rdlen_running hs, fun v => exec_rdlen_running (s := drive v s) hs⟩
  | rdrom row =>
    have hrow := legalRomIndex_iff.mp hwf
    exact ⟨_, exec_rdrom_legal hs hrow, fun v => exec_rdrom_legal (s := drive v s) hs hrow⟩
  | rdstat => exact ⟨_, exec_rdstat s, fun v => exec_rdstat (drive v s)⟩
  | _ => cases hread

/-- Settles O20: the second read starts from the state with the first one's word on `rdata`. -/
theorem readsAreIdempotent : Obligations.ReadsAreIdempotent := by
  intro i s t hwf hi hs hexec
  have hread : isRead i = true := by
    obtain rfl | ⟨_, rfl⟩ | rfl | ⟨_, rfl⟩ | rfl := hi <;> rfl
  obtain ⟨w, hfirst, hagain⟩ := exec_read_running hread hwf hs
  cases hfirst.symm.trans hexec
  exact ⟨rfl, hagain w⟩

/-! ### Payload lengths (20_memory.md R47) -/

/-- Settles O32: the bounds and the ceiling are the laws of the two lengths; the four listed values evaluate. -/
theorem payloadLengths : Obligations.PayloadLengths := by
  refine ⟨fun b => ⟨rfl, payloadLen64_le b, payloadLen32_eq b, payloadLen32_le b⟩, ?_⟩
  decide

end Sys2Proof.Machine
end

section
/-! PROOFS. The encoding (30_encoding.md): the two fields of a command word, what the rows of the opcode map select and
build, and the agreement of decoder, encoder and the reserved words. -/

namespace Sys2Proof

open Sys2Proof.Machine

/-! ### The two fields of a command word (R60) -/

@[simp] theorem opField_append (op idx : Nibble) : opField (op ++ idx) = op :=
  BitVec.extractLsb'_append_eq_left

@[simp] theorem idxField_append (op idx : Nibble) : idxField (op ++ idx) = idx :=
  BitVec.extractLsb'_append_eq_right

/-- A command word is its two fields. -/
theorem opField_append_idxField (cmd : Byte) : opField cmd ++ idxField cmd = cmd := by
  revert cmd; apply forall_byte; decide +kernel

/-! ### What a row of the opcode map selects (R63) -/

/-- A row whose mask is the whole word selects its pattern only. -/
theorem OpRow.selects_full_iff {pattern cmd : Byte} {build : Byte → Word → Instr} :
    (OpRow.mk pattern 0xFF#8 build).selects cmd = true ↔ cmd = pattern := by
  rw [OpRow.selects, beq_iff_eq]
  exact Eq.congr_left BitVec.and_allOnes

/-- A row whose mask is the `op` field selects the words with the `op` of its pattern, whatever their `idx`. -/
theorem OpRow.selects_op_iff {op : Nibble} {cmd : Byte} {build : Byte → Word → Instr} :
    (OpRow.mk (op ++ 0#4) 0xF0#8 build).selects cmd = true ↔ opField cmd = op := by
  have hmask : cmd &&& 0xF0#8 = opField cmd ++ 0#4 := by
    revert cmd; apply forall_byte; decide +kernel
  simp only [OpRow.selects, hmask, beq_iff_eq]
  exact ⟨fun h => by simpa using congrArg opField h, fun h => by rw [h]⟩

/-! ### The decoder by rows -/

/-- Inversion of `decode`: what it answers is built by a row of the map that selects the word. -/
theorem exists_row_of_decode {cmd : Byte} {wdata : Word} {i : Instr} (h : decode cmd wdata = .ok i) :
    ∃ row ∈ opcodeMap, row.selects cmd = true ∧ row.build cmd wdata = i := by
  cases hfind : opcodeMap.find? (fun r => r.selects cmd) with
  | none => cases (decode_of_no_row hfind wdata).symm.trans h
  | some row =>
    cases (decode_of_row hfind wdata).symm.trans h
    exact ⟨row, List.mem_of_find?_eq_some hfind, by simpa using List.find?_some hfind, rfl⟩

/-- `LDBUF` decodes with every index, legal or not (R62), and takes bits 7:0 of the data word (R61). -/
theorem decode_ldbuf (idx : Nibble) (wdata : Word) :
    decode (0x3#4 ++ idx) wdata = .ok (.ldbuf idx (wdata.setWidth 8)) := by
  revert idx; apply forall_nibble
  intro n hn
  interval_cases n <;> rfl

/-- `RDBUF` decodes with every index, legal or not (R62). -/
theorem decode_rdbuf (idx : Nibble) (wdata : Word) : decode (0x4#4 ++ idx) wdata = .ok (.rdbuf idx) := by
  revert idx; apply forall_nibble
  intro n hn
  interval_cases n <;> rfl

/-- `RDROM` takes its row from bits 7:0 of the data word (R61). -/
theorem decode_rdrom (wdata : Word) : decode 0x60#8 wdata = .ok (.rdrom (wdata.setWidth 8)) := rfl

/-- `LDVAL` takes the whole data word (R61). -/
theorem decode_ldval (wdata : Word) : decode 0x10#8 wdata = .ok (.ldval wdata) := rfl

/-! ### Decoder and encoder -/

/-- Settles O1: an 8-bit operand is read back from the data word it was extended to; every command without an index is
a fixed word, whose row of the map the decoder finds. -/
theorem decodeOfEncodeIsTheInstruction : Obligations.DecodeOfEncodeIsTheInstruction := by
  have hbyte : ∀ b : Byte, (b.setWidth 64).setWidth 8 = b := by simp
  intro i
  cases i with
  | ldval imm => exact decode_ldval imm
  | ldbuf idx imm => simpa only [hbyte] using! decode_ldbuf idx (imm.setWidth 64)
  | rdbuf idx => exact decode_rdbuf idx 0#64
  | rdrom row => simpa only [hbyte] using! decode_rdrom (row.setWidth 64)
  | _ => rfl

/-- Bits 7:0 of a data word, extended again, are the data word cut to these lanes (R61). -/
theorem setWidth_setWidth_eq_and_lane (w : Word) : (w.setWidth 8).setWidth 64 = w &&& 0xFF#64 := by
  have hlane : w.toNat &&& 255 = w.toNat % 2 ^ 8 := Nat.and_two_pow_sub_one_eq_mod w.toNat 8
  have hfits : w.toNat % 2 ^ 8 < 2 ^ 64 := by omega
  apply BitVec.eq_of_toNat_eq
  rw [BitVec.toNat_setWidth, BitVec.toNat_setWidth, Nat.mod_eq_of_lt hfits]
  exact hlane.symm

/-- A row without an operand: the word is the row's pattern, and no lane of the data word is used. -/
theorem encode_of_selects_of_no_operand {pattern : Byte} {i : Instr} (hencode : encode i = (pattern, 0#64))
    (hlanes : dataLanes i = 0#64) (cmd : Byte) (wdata : Word)
    (hsel : (OpRow.mk pattern 0xFF#8 fun _ _ => i).selects cmd = true) :
    encode i = (cmd, wdata &&& dataLanes i) := by
  rw [OpRow.selects_full_iff.mp hsel, hlanes, hencode, BitVec.and_zero]

/-- A row that selects a word builds an instruction whose encoding is that word, with the data lanes it uses. -/
theorem encode_build_of_selects : ∀ row ∈ opcodeMap, ∀ (cmd : Byte) (wdata : Word), row.selects cmd = true →
    encode (row.build cmd wdata) = (cmd, wdata &&& dataLanes (row.build cmd wdata)) := by
  have plain := @encode_of_selects_of_no_operand
  simp only [opcodeMap, List.forall_mem_cons]
  refine ⟨plain rfl rfl, ?ldval, plain rfl rfl, ?ldbuf, ?rdbuf, plain rfl rfl, ?rdrom, plain rfl rfl, plain rfl rfl,
    plain rfl rfl, plain rfl rfl, plain rfl rfl, plain rfl rfl, plain rfl rfl, List.forall_mem_nil _⟩ <;>
    intro cmd wdata hsel
  case ldval =>
    rw [OpRow.selects_full_iff.mp hsel]
    simp only [encode, dataLanes, BitVec.and_allOnes]
  case ldbuf =>
    have hop : opField cmd = 0x3#4 := OpRow.selects_op_iff.mp hsel
    simp only [encode, dataLanes, setWidth_setWidth_eq_and_lane, ← hop, opField_append_idxField]
  case rdbuf =>
    have hop : opField cmd = 0x4#4 := OpRow.selects_op_iff.mp hsel
    simp only [encode, dataLanes, BitVec.and_zero, ← hop, opField_append_idxField]
  case rdrom =>
    rw [OpRow.selects_full_iff.mp hsel]
    simp only [encode, dataLanes, setWidth_setWidth_eq_and_lane]

/-- Settles O2: the decoded instruction was built by a row that selects the word. -/
theorem decodedPairIsItsEncoding : Obligations.DecodedPairIsItsEncoding := by
  intro cmd wdata i h
  obtain ⟨row, hrow, hsel, rfl⟩ := exists_row_of_decode h
  exact encode_build_of_selects row hrow cmd wdata hsel

/-! ### The reserved words (R65) -/

/-- No row of the map selects a reserved word, and some row selects every other. -/
theorem find_row_eq_none_iff_reservedWord (cmd : Byte) :
    opcodeMap.find? (fun r => r.selects cmd) = none ↔ reservedWord cmd = true := by
  rw [← Option.isNone_iff_eq_none]
  revert cmd; apply forall_byte; decide +kernel

/-- Settles O3: the decoder errs when no row selects the word. -/
theorem decoderRejectsExactlyReservedWords : Obligations.DecoderRejectsExactlyReservedWords := by
  intro cmd wdata
  rw [← find_row_eq_none_iff_reservedWord]
  cases hfind : opcodeMap.find? (fun r => r.selects cmd) with
  | none => simp [decode_of_no_row hfind]
  | some row => simp [decode_of_row hfind]

/-- A word with an illegal index has the `op` of `LDBUF` or `RDBUF`, which R65 reserves with no `idx`. -/
theorem reservedWord_of_illegalIndexWord {cmd : Byte} (h : illegalIndexWord cmd = true) :
    reservedWord cmd = false := by
  simp only [illegalIndexWord, Bool.and_eq_true, Bool.or_eq_true, beq_iff_eq] at h
  obtain ⟨hop | hop, -⟩ := h <;> simp [reservedWord, hop]

/-- Settles O4: the words are counted, and the two classes exclude each other by their `op`. -/
theorem commandWordCounts : Obligations.CommandWordCounts := by
  refine ⟨by decide +kernel, by decide +kernel, by decide +kernel, fun w ⟨hreserved, hillegal⟩ => ?_⟩
  rw [reservedWord_of_illegalIndexWord hillegal] at hreserved
  cases hreserved

/-- Settles O5: each word is found in its row of the map. -/
theorem wordsOfTheMapDecode : Obligations.WordsOfTheMapDecode :=
  ⟨rfl, decode_ldval _, decode_ldbuf 8#4 _, decode_rdbuf 15#4 _, decode_rdrom _, rfl, rfl⟩

end Sys2Proof
end

section
/-! PROOFS. The shift table (40_shift_table.md): the positions and the count of a bitmap, the rows of the ROM, and the
fields of the word that `RDROM` drives. -/

namespace Sys2Proof.Machine

/-! ### Positions (R80) -/

theorem positions_pairwise_lt (b : Byte) : (positions b).Pairwise (· < ·) :=
  List.pairwise_lt_range.filter _

theorem mem_positions {b : Byte} {k : Nat} : k ∈ positions b ↔ k < 8 ∧ b.getLsbD (7 - k) = true := by
  simp [positions]

/-- Settles O28: a filter of the ascending range 0..7. -/
theorem positionsAreTheSetGroups : Obligations.PositionsAreTheSetGroups := by
  intro b
  refine ⟨positions_pairwise_lt b, fun k => ?_⟩
  rw [mem_positions, Nat.lt_succ_iff]

/-! ### Count (R81) -/

/-- Both count the set bits of `b`, from its two ends. -/
theorem positions_length (b : Byte) : (positions b).length = popcount b := by
  have hrange : List.range 8 = [0, 1, 2, 3, 4, 5, 6, 7] := rfl
  have hbit : ∀ c : Bool, (if c = true then 1 else 0) = c.toNat := by decide
  simp only [positions, popcount, Config.nGroups_eq, hrange, ← List.countP_eq_length_filter, List.countP_cons,
    List.countP_nil, List.map_cons, List.map_nil, List.sum_cons, List.sum_nil, hbit, Nat.reduceSub]
  omega

theorem popcount_eq_zero_iff {b : Byte} : popcount b = 0 ↔ b = 0x00#8 := by
  revert b; apply forall_byte; decide +kernel

theorem popcount_eq_eight_iff {b : Byte} : popcount b = 8 ↔ b = 0xFF#8 := by
  revert b; apply forall_byte; decide +kernel

theorem popcount_between {b : Byte} (hzero : b ≠ 0x00#8) (hfull : b ≠ 0xFF#8) :
    1 ≤ popcount b ∧ popcount b ≤ 7 := by
  have hne_zero := mt popcount_eq_zero_iff.mp hzero
  have hne_eight := mt popcount_eq_eight_iff.mp hfull
  have hle := popcount_le b
  omega

/-- Settles O29: the bounds are those of `popcount`, whose two ends only 0 and 0xFF reach. -/
theorem countIsPopcount : Obligations.CountIsPopcount :=
  ⟨fun b => ⟨positions_length b, rfl⟩, popcount_eq_zero_iff.mpr rfl, popcount_eq_eight_iff.mpr rfl,
    fun _ => popcount_between⟩

/-! ### The rows of the ROM (R82, R85) -/

theorem tableEntry_eq (b : Byte) : tableEntry b = ⟨popcount b, positions b⟩ := by
  rw [tableEntry, positions_length]

theorem rom_of_legal {b : Byte} (h : b ≠ 0x00#8 ∧ b ≠ 0xFF#8) : rom b = some (tableEntry b) :=
  if_pos (legalRomIndex_iff.mpr h)

theorem rom_of_illegal {b : Byte} (h : b = 0x00#8 ∨ b = 0xFF#8) : rom b = none := by
  obtain rfl | rfl := h <;> rfl

/-- Settles O30: the legal indices are the numbers 1 to 254. -/
theorem romHasRowsOneTo254 : Obligations.RomHasRowsOneTo254 := by
  intro b
  constructor
  · intro hrange
    have hlegal : b ≠ 0x00#8 ∧ b ≠ 0xFF#8 := by bv_omega
    rw [rom_of_legal hlegal, tableEntry_eq]
  · intro hend
    exact rom_of_illegal (by bv_omega)

/-! ### The fields of the row word (R84) -/

/-- A value of 3 bits, shifted to field `j`, is read back from field `j` and leaves the others 0. -/
theorem extractLsb'_shiftLeft_field {k i : Nat} (hk : k < 8) (hi : i < 8) (j : Nat) :
    (BitVec.ofNat 24 k <<< (3 * j)).extractLsb' (3 * i) 3 = if j = i then BitVec.ofNat 3 k else 0#3 := by
  apply BitVec.eq_of_getLsbD_eq
  intro t ht
  have hbit : 3 * i + t < 24 := by omega
  simp only [BitVec.getLsbD_extractLsb', BitVec.getLsbD_shiftLeft, BitVec.getLsbD_ofNat, ht, hbit,
    Nat.sub_lt_of_lt hbit, decide_true, Bool.true_and]
  rcases lt_trichotomy j i with hji | rfl | hij
  · have hfits : 2 ^ 3 ≤ 2 ^ (3 * i + t - 3 * j) := Nat.pow_le_pow_right (by decide) (by omega)
    simp [hji.ne, Nat.testBit_lt_two_pow (hk.trans_le hfits)]
  · rw [if_pos rfl, BitVec.getLsbD_ofNat]
    simp [ht]
  · have hlow : 3 * i + t < 3 * j := by omega
    simp [hij.ne', hlow]

/-- The loop of R86 from position `n` on: it adds entry `i - n - 1` of the list to field `i` for `i > n`, and leaves the
lower fields as they are. -/
theorem extractLsb'_foldl_field {i : Nat} (hi : i < 8) (pos : List Nat) (hpos : ∀ k ∈ pos, k < 8) (n : Nat)
    (w : BitVec 24) :
    ((pos.zipIdx n).foldl (fun w p => w ||| (BitVec.ofNat 24 p.1 <<< (3 * p.2 + 3))) w).extractLsb' (3 * i) 3 =
      w.extractLsb' (3 * i) 3 ||| if n < i then BitVec.ofNat 3 (pos.getD (i - n - 1) 0) else 0#3 := by
  induction pos generalizing n w with
  | nil => simp
  | cons k pos ih =>
    obtain ⟨hk, hrest⟩ := List.forall_mem_cons.mp hpos
    rw [List.zipIdx_cons, List.foldl_cons, ih hrest, BitVec.extractLsb'_or, ← Nat.mul_succ,
      extractLsb'_shiftLeft_field hk hi, BitVec.or_assoc]
    congr 1
    rcases lt_trichotomy (n + 1) i with hlt | rfl | hgt
    · have hidx : i - n - 1 = i - (n + 1) - 1 + 1 := by omega
      rw [if_neg hlt.ne, if_pos hlt, if_pos (by omega), hidx, List.getD_cons_succ, BitVec.zero_or]
    · simp
    · rw [if_neg hgt.ne', if_neg (by omega), if_neg (by omega), BitVec.or_self]

theorem getD_lt_eight {l : List Nat} (hl : ∀ k ∈ l, k < 8) (i : Nat) : l.getD i 0 < 8 := by
  by_cases hi : i < l.length
  · rw [List.getD_eq_getElem _ _ hi]
    exact hl _ (List.getElem_mem hi)
  · rw [List.getD_eq_default _ _ (Nat.le_of_not_lt hi)]
    decide

/-- The eight fields of a row's word are the count and then the positions, 0 beyond the last. -/
theorem toNat_romWord_field {row : RomRow} (hfits : ∀ k ∈ row.count :: row.pos, k < 8) {i : Nat} (hi : i < 8) :
    ((romWord row).extractLsb' (3 * i) 3).toNat = (row.count :: row.pos).getD i 0 := by
  obtain ⟨hcount, hpos⟩ := List.forall_mem_cons.mp hfits
  have hinit := extractLsb'_shiftLeft_field hcount hi 0
  rw [Nat.mul_zero, BitVec.shiftLeft_zero] at hinit
  have hfield : (romWord row).extractLsb' (3 * i) 3 = BitVec.ofNat 3 ((row.count :: row.pos).getD i 0) := by
    rw [romWord, extractLsb'_foldl_field hi row.pos hpos, hinit]
    cases i with
    | zero => simp
    | succ i => simp
  rw [hfield, BitVec.toNat_ofNat]
  exact Nat.mod_eq_of_lt (getD_lt_eight hfits i)

/-! ### `RDROM` (R86) -/

/-- A row of the ROM has a count of at most 7, and its positions are group indices: each fits its 3 bits. -/
theorem tableEntry_fits {b : Byte} (h : b ≠ 0x00#8 ∧ b ≠ 0xFF#8) :
    ∀ k ∈ (tableEntry b).count :: (tableEntry b).pos, k < 8 := by
  obtain ⟨hzero, hfull⟩ := h
  obtain ⟨-, hle⟩ := popcount_between hzero hfull
  rw [tableEntry_eq]
  exact List.forall_mem_cons.mpr ⟨Nat.lt_succ_of_le hle, fun k hk => (mem_positions.mp hk).1⟩

/-- Settles O31: the word is that of the row, read field by field: field 0 is the count, field `i + 1` position `i`. -/
theorem rdromDrivesTheRow : Obligations.RdromDrivesTheRow := by
  refine ⟨decode_rdrom, fun s b hs => ⟨fun hzero hfull => ?_, exec_rdrom_illegal hs⟩⟩
  have hlegal : b ≠ 0x00#8 ∧ b ≠ 0xFF#8 := ⟨hzero, hfull⟩
  have hfield {i : Nat} (hi : i < 8) := toNat_romWord_field (tableEntry_fits hlegal) hi
  refine ⟨romWord (tableEntry b), exec_rdrom_legal hs hlegal, ?_, fun i hi => hfield (Nat.succ_lt_succ hi)⟩
  exact (hfield (Nat.zero_lt_succ 7)).trans (positions_length b)

end Sys2Proof.Machine
end

section
/-! PROOFS. The 64-bit codec (41_codec64.md): the bitmap and the payload of a word by its bytes, the loop form of the
encoder, the decoder's sum as a disjoint OR, the round trip, and the three commands. -/

namespace Sys2Proof.Machine

/-! ### Words and bitmaps by their groups (00_scope.md R11, 20_memory.md R46) -/

/-- Bitmaps with the same flag for each of the eight groups are equal. -/
theorem eq_of_group_bits {b c : Byte} (h : ∀ k, k < 8 → b.getLsbD (7 - k) = c.getLsbD (7 - k)) : b = c := by
  apply BitVec.eq_of_getLsbD_eq
  intro i hi
  simpa only [show 7 - (7 - i) = i by omega] using h (7 - i) (by omega)

theorem getLsbD_byteGroup (x : Word) (k i : Nat) :
    (byteGroup x k).getLsbD i = (decide (i < 8) && x.getLsbD (8 * k + i)) :=
  BitVec.getLsbD_extractLsb' ..

/-- Words with the same eight bytes are equal. -/
theorem eq_of_byteGroup_eq {x y : Word} (h : ∀ k, k < 8 → byteGroup x k = byteGroup y k) : x = y := by
  apply BitVec.eq_of_getLsbD_eq
  intro i hi
  have hbit := congrArg (BitVec.getLsbD · (i % 8)) (h (i / 8) (by omega))
  simpa only [getLsbD_byteGroup, Nat.mod_lt i (by decide : 8 > 0), Nat.div_add_mod, decide_true, Bool.true_and]
    using hbit

@[simp] theorem byteGroup_zero (k : Nat) : byteGroup 0#64 k = 0x00#8 := BitVec.extractLsb'_zero

theorem byteGroup_or (x y : Word) (k : Nat) : byteGroup (x ||| y) k = byteGroup x k ||| byteGroup y k :=
  BitVec.extractLsb'_or

theorem setWidth_eq_byteGroup (x : Word) : x.setWidth 8 = byteGroup x 0 :=
  BitVec.setWidth_eq_extractLsb' (by decide)

/-- A shift by one byte renumbers the groups. -/
theorem byteGroup_shiftRight (x : Word) (k : Nat) : byteGroup (x >>> 8) k = byteGroup x (k + 1) := by
  apply BitVec.eq_of_getLsbD_eq
  intro i hi
  simp only [getLsbD_byteGroup, BitVec.getLsbD_ushiftRight]
  congr 2
  omega

theorem byteGroup_eight (x : Word) : byteGroup x 8 = 0x00#8 := by
  apply BitVec.eq_of_getLsbD_eq
  intro i hi
  simp [getLsbD_byteGroup]

/-- A byte shifted to group `k` is that group, and every other group is zero. -/
theorem byteGroup_shiftLeft (v : Byte) {k j : Nat} (hj : j < 8) :
    byteGroup (v.setWidth 64 <<< (8 * k)) j = if k = j then v else 0x00#8 := by
  apply BitVec.eq_of_getLsbD_eq
  intro i hi
  have hbit : 8 * j + i < 64 := by omega
  simp only [getLsbD_byteGroup, BitVec.getLsbD_shiftLeft, BitVec.getLsbD_setWidth, hi, hbit,
    Nat.sub_lt_of_lt hbit, decide_true, Bool.true_and]
  rcases lt_trichotomy k j with hkj | rfl | hjk
  · have hout : 8 ≤ 8 * j + i - 8 * k := by omega
    simp [hkj.ne, BitVec.getLsbD_of_ge v _ hout]
  · simp
  · have hlow : 8 * j + i < 8 * k := by omega
    simp [hjk.ne', hlow]

/-! ### The encoder: bitmap, payload and length (R90 to R92) -/

theorem bitmap64_bit (x : Word) {k : Nat} (hk : k < 8) :
    (bitmap64 x).getLsbD (7 - k) = (byteGroup x k != 0x00#8) :=
  bitmapOf_bit _ hk

theorem positions_bitmap64 (x : Word) :
    positions (bitmap64 x) = (List.range 8).filter fun k => byteGroup x k != 0x00#8 :=
  positions_bitmapOf _

theorem bitmap64_zero : bitmap64 0#64 = 0x00#8 := by decide

theorem bitmap64_eq_zero_iff {x : Word} : bitmap64 x = 0x00#8 ↔ x = 0#64 := by
  refine ⟨fun h => eq_of_byteGroup_eq fun k hk => ?_, fun h => h ▸ bitmap64_zero⟩
  simpa [h] using bitmap64_bit x hk

theorem bitmap64_eq_full_iff {x : Word} : bitmap64 x = 0xFF#8 ↔ ∀ k, k ≤ 7 → byteGroup x k ≠ 0x00#8 := by
  have hfull : ∀ k, k < 8 → (0xFF#8).getLsbD (7 - k) = true := by decide
  constructor
  · intro h k hk
    simpa [h, hfull k (Nat.lt_succ_of_le hk)] using bitmap64_bit x (Nat.lt_succ_of_le hk)
  · intro h
    refine eq_of_group_bits fun k hk => ?_
    rw [bitmap64_bit x hk, hfull k hk, bne_iff_ne]
    exact h k (Nat.le_of_lt_succ hk)

/-- Settles O33: the flag of each group, and from the flags the two extreme bitmaps. -/
theorem bitmap64FlagsNonZeroBytes : Obligations.Bitmap64FlagsNonZeroBytes := by
  refine ⟨fun x k hk => ?_, bitmap64_zero, fun x => bitmap64_eq_full_iff⟩
  rw [bitmap64_bit x (Nat.lt_succ_of_le hk), bne_iff_ne]

/-- The bytes at the flagged positions are the bytes that are not zero (R91). -/
theorem payload64_eq_filter (x : Word) :
    payload64 x = ((List.range 8).map (byteGroup x)).filter (· != 0x00#8) := by
  rw [payload64, positions_bitmap64, List.filter_map]
  rfl

theorem payload64_length (x : Word) : (payload64 x).length = popcount (bitmap64 x) := by
  rw [payload64, List.length_map, positions_length]

theorem ne_zero_of_mem_payload64 {x : Word} {v : Byte} (h : v ∈ payload64 x) : v ≠ 0x00#8 := by
  rw [payload64_eq_filter] at h
  simpa using (List.mem_filter.mp h).2

theorem payload64_zero : payload64 0#64 = [] := by decide

/-- Settles O34. -/
theorem payload64IsTheNonZeroBytes : Obligations.Payload64IsTheNonZeroBytes :=
  ⟨fun x => ⟨payload64_eq_filter x, payload64_length x, fun _ => ne_zero_of_mem_payload64⟩, payload64_zero⟩

theorem encode64_length (x : Word) : (encode64 x).length = encodedLen64 x := by
  rw [encode64, List.length_cons, payload64_length, encodedLen64, Nat.add_comm]

theorem encode64_zero : encode64 0#64 = [0x00#8] := by
  rw [encode64, bitmap64_zero, payload64_zero]

/-- Settles O36: with no zero byte, the general rule filters nothing out (R94). -/
theorem encode64FastPaths : Obligations.Encode64FastPaths := by
  refine ⟨fun x hx => ?_, encode64_zero⟩
  have hpayload : payload64 x = (List.range 8).map (byteGroup x) := by
    rw [payload64_eq_filter, List.filter_eq_self]
    intro v hv
    obtain ⟨k, hk, rfl⟩ := List.mem_map.mp hv
    exact bne_iff_ne.mpr (hx k (Nat.le_of_lt_succ (List.mem_range.mp hk)))
  rw [encode64, bitmap64_eq_full_iff.mpr hx, hpayload]
  exact ⟨rfl, rfl⟩

theorem popcount_bitmap64 (x : Word) :
    popcount (bitmap64 x) = ((List.range 8).filter fun k => byteGroup x k != 0x00#8).length := by
  rw [← positions_length, positions_bitmap64]

/-- Settles O37: a length is 1 and the count of the bitmap, so its ends are those of the count. -/
theorem encodedLength64 : Obligations.EncodedLength64 := by
  intro x
  have hle := popcount_le (bitmap64 x)
  have hone : encodedLen64 x = 1 ↔ x = 0#64 := by
    rw [encodedLen64, Nat.add_eq_left, popcount_eq_zero_iff, bitmap64_eq_zero_iff]
  have hnine : encodedLen64 x = 9 ↔ ∀ k, k ≤ 7 → byteGroup x k ≠ 0x00#8 := by
    rw [← bitmap64_eq_full_iff, ← popcount_eq_eight_iff, encodedLen64]
    omega
  exact ⟨encode64_length x, Nat.le_add_right .., Nat.add_le_add_left hle 1, hone, hnine,
    congrArg (1 + ·) (popcount_bitmap64 x)⟩

/-! ### The loop form of the encoder (R93) -/

/-- The bitmap of a word from its low byte and the bitmap of the rest, which the loop shifts down. -/
theorem bitmap64_eq_low_or (r : Word) :
    bitmap64 r = (if r.setWidth 8 = 0x00#8 then 0x00#8 else 0x80#8) ||| bitmap64 (r >>> 8) >>> 1 := by
  apply eq_of_group_bits
  intro k hk
  rw [bitmap64_bit r hk, BitVec.getLsbD_or, BitVec.getLsbD_ushiftRight, setWidth_eq_byteGroup]
  cases k with
  | zero => by_cases h : byteGroup r 0 = 0x00#8 <;> simp [h]
  | succ k =>
    have hflag : ∀ k, k < 7 → (0x80#8).getLsbD (6 - k) = false := by decide
    have hrest : 1 + (7 - (k + 1)) = 7 - k := by omega
    rw [hrest, bitmap64_bit _ (by omega), byteGroup_shiftRight]
    split <;> simp [hflag k (by omega)]

/-- The payload of a word is its low byte, where that is not zero, and the payload of the rest. -/
theorem payload64_eq_low_append (r : Word) :
    payload64 r = (if r.setWidth 8 = 0x00#8 then [] else [r.setWidth 8]) ++ payload64 (r >>> 8) := by
  have hrest : (List.range 8).map (byteGroup (r >>> 8)) =
      (List.range 7).map (fun k => byteGroup r (k + 1)) ++ [0x00#8] := by
    simp [List.range_succ, byteGroup_shiftRight, byteGroup_eight]
  have hall : (List.range 8).map (byteGroup r) =
      byteGroup r 0 :: (List.range 7).map (fun k => byteGroup r (k + 1)) := by
    simp [List.range_succ]
  rw [payload64_eq_filter, payload64_eq_filter, hrest, hall, List.filter_append, List.filter_cons,
    setWidth_eq_byteGroup]
  by_cases h : byteGroup r 0 = 0x00#8 <;> simp [h]

/-- The flag that the round of group `m` sets is the one that the remainder's bitmap has there. -/
theorem roundBitmap_eq (r : Word) (b : Byte) {m : Nat} (hm : m < 8) :
    (if r.setWidth 8 = 0x00#8 then b else b ||| 1#8 <<< (7 - m)) ||| bitmap64 (r >>> 8) >>> (m + 1) =
      b ||| bitmap64 r >>> m := by
  have hflag : ∀ m, m < 8 → 0x80#8 >>> m = 1#8 <<< (7 - m) := by decide
  rw [bitmap64_eq_low_or r, BitVec.ushiftRight_or_distrib, ← BitVec.shiftRight_add, Nat.add_comm 1 m]
  split
  · rw [BitVec.zero_ushiftRight, BitVec.zero_or]
  · rw [hflag m hm, BitVec.or_assoc]

theorem roundPayload_eq (r : Word) (pay : List Byte) :
    (if r.setWidth 8 = 0x00#8 then pay else pay ++ [r.setWidth 8]) ++ payload64 (r >>> 8) =
      pay ++ payload64 r := by
  rw [payload64_eq_low_append r]
  split
  · rfl
  · rw [List.append_assoc]

/-- The rounds with `fuel` groups left, on a remainder that is not zero and has no further groups: they add the
remainder's own flags, shifted to the groups not yet done, and its payload. -/
theorem encodeRounds64_eq {fuel : Nat} {r : Word} (b : Byte) (pay : List Byte) (hfuel : fuel ≤ 8)
    (hr : r ≠ 0#64) (hlt : r.toNat < 2 ^ (8 * fuel)) :
    encodeRounds64 fuel r b pay = (b ||| bitmap64 r >>> (8 - fuel), pay ++ payload64 r) := by
  fun_induction encodeRounds64 fuel r b pay with
  | case1 => exact absurd (BitVec.eq_of_toNat_eq (Nat.lt_one_iff.mp hlt)) hr
  | case2 r b pay =>
    have hlow : r.setWidth 8 ≠ 0x00#8 := by bv_omega
    have hrest : r >>> 8 = 0#64 := by bv_omega
    have hbitmap := roundBitmap_eq r b (by decide : 7 < 8)
    have hpayload := roundPayload_eq r pay
    rw [hrest, if_neg hlow] at hbitmap hpayload
    simpa [bitmap64_zero, payload64_zero] using And.intro hbitmap hpayload
  | case3 fuel r b pay k b' pay' hrest =>
    have hbitmap := roundBitmap_eq r b (by omega : k < 8)
    have hpayload := roundPayload_eq r pay
    rw [hrest] at hbitmap hpayload
    have hk : 8 - (fuel + 2) = k := by omega
    rw [hk]
    simpa [bitmap64_zero, payload64_zero] using And.intro hbitmap hpayload
  | case4 fuel r b pay k b' pay' hrest ih =>
    have hk : 8 - (fuel + 2) = k := by omega
    have hk' : 8 - (fuel + 1) = k + 1 := by omega
    have hlt' : (r >>> 8).toNat < 2 ^ (8 * (fuel + 1)) := by
      rw [BitVec.toNat_ushiftRight, Nat.shiftRight_eq_div_pow, Nat.div_lt_iff_lt_mul (by decide), ← Nat.pow_add]
      exact hlt
    rw [ih (by omega) hrest hlt', hk, hk', roundBitmap_eq r b (by omega), roundPayload_eq]

/-- Settles O35: all eight rounds, on the word itself. -/
theorem encodeLoop64IsTheClosedForm : Obligations.EncodeLoop64IsTheClosedForm := by
  intro x
  by_cases hx : x = 0#64
  · rw [hx, encode64_zero]
    rfl
  · simp [encodeLoop64, hx, encodeRounds64_eq 0#8 [] (Nat.le_refl 8) hx x.isLt, encode64]

/-! ### The decoder's sum (R97, R100) -/

@[simp] theorem scatter64_nil_left (p : List Byte) : scatter64 [] p = 0 := rfl

@[simp] theorem scatter64_nil_right (pos : List Nat) : scatter64 pos [] = 0 := by
  simp [scatter64]

theorem scatter64_cons (k : Nat) (pos : List Nat) (v : Byte) (p : List Byte) :
    scatter64 (k :: pos) (v :: p) = v.toNat <<< (8 * k) + scatter64 pos p := rfl

/-- The table and both fast paths scatter over the positions of the bitmap. -/
theorem decode64_eq_scatter64 (b : Byte) (p : List Byte) :
    decode64 b p = BitVec.ofNat 64 (scatter64 (positions b) p) := by
  by_cases hend : b = 0x00#8 ∨ b = 0xFF#8
  · have hempty : positions 0x00#8 = [] := by decide
    have hall : positions 0xFF#8 = [0, 1, 2, 3, 4, 5, 6, 7] := by decide
    obtain rfl | rfl := hend
    · simp [decode64, rom_of_illegal, hempty]
    · simp [decode64, rom_of_illegal, hall]
  · simp only [decode64, rom_of_legal (not_or.mp hend), tableEntry_eq]

/-- The terms that a decoder with enough payload takes, by their index. -/
theorem zip_eq_map_range {pos : List Nat} {p : List Byte} (h : pos.length ≤ p.length) :
    pos.zip p = (List.range pos.length).map fun i => (pos.getD i 0, p.getD i 0x00#8) := by
  apply List.ext_getElem
  · simp [h]
  · intro i hi hi'
    have hpos : i < pos.length := by simpa using hi'
    simp [hpos, hpos.trans_le h]

theorem scatter64_take (pos : List Nat) (p : List Byte) : scatter64 pos (p.take pos.length) = scatter64 pos p := by
  induction pos generalizing p with
  | nil => rfl
  | cons k pos ih =>
    cases p with
    | nil => rfl
    | cons v p => rw [List.length_cons, List.take_succ_cons, scatter64_cons, scatter64_cons, ih]

/-- Settles O39: the sum over the pairs of a position and its byte, taken by index. -/
theorem decode64IsOneFormula : Obligations.Decode64IsOneFormula := by
  intro b p hp
  rw [payloadLen64, ← positions_length] at hp ⊢
  rw [decode64_eq_scatter64, decode64_eq_scatter64, scatter64_take, scatter64, zip_eq_map_range hp, List.map_map]
  exact ⟨rfl, rfl⟩

theorem byte_shiftLeft_lt (v : Byte) (k : Nat) : v.toNat <<< (8 * k) < 2 ^ (8 * (k + 1)) := by
  rw [Nat.shiftLeft_eq, Nat.mul_succ, Nat.add_comm, Nat.pow_add]
  exact Nat.mul_lt_mul_of_pos_right v.isLt (Nat.two_pow_pos _)

/-- Positions from `n` up leave the groups below `n` zero. -/
theorem two_pow_dvd_scatter64 {n : Nat} {pos : List Nat} (h : ∀ k ∈ pos, n ≤ k) (p : List Byte) :
    2 ^ (8 * n) ∣ scatter64 pos p := by
  induction pos generalizing p with
  | nil => exact Nat.dvd_zero _
  | cons k pos ih =>
    obtain ⟨hk, hpos⟩ := List.forall_mem_cons.mp h
    cases p with
    | nil => simp
    | cons v p =>
      have hterm : 2 ^ (8 * n) ∣ v.toNat <<< (8 * k) := by
        rw [Nat.shiftLeft_eq]
        exact Dvd.dvd.mul_left (Nat.pow_dvd_pow 2 (Nat.mul_le_mul_left 8 hk)) _
      exact Nat.dvd_add hterm (ih hpos p)

/-- The lowest term and the rest of an ascending sum share no bit, so there is no carry (R100). -/
theorem scatter64_cons_eq_or {k : Nat} {pos : List Nat} (h : ∀ j ∈ pos, k < j) (v : Byte) (p : List Byte) :
    scatter64 (k :: pos) (v :: p) = v.toNat <<< (8 * k) ||| scatter64 pos p := by
  obtain ⟨a, ha⟩ := two_pow_dvd_scatter64 h p
  rw [scatter64_cons, ha, Nat.add_comm, Nat.or_comm]
  exact Nat.two_pow_add_eq_or_of_lt (byte_shiftLeft_lt v k) a

/-- An ascending sum over groups of a word fits the word. -/
theorem scatter64_lt {pos : List Nat} (hasc : pos.Pairwise (· < ·)) (hpos : ∀ k ∈ pos, k < 8) (p : List Byte) :
    scatter64 pos p < 2 ^ 64 := by
  induction pos generalizing p with
  | nil => exact Nat.two_pow_pos 64
  | cons k pos ih =>
    obtain ⟨hk, hrest⟩ := List.forall_mem_cons.mp hpos
    obtain ⟨hlow, hasc⟩ := List.pairwise_cons.mp hasc
    cases p with
    | nil => simp
    | cons v p =>
      have hterm : v.toNat <<< (8 * k) < 2 ^ 64 :=
        (byte_shiftLeft_lt v k).trans_le (Nat.pow_le_pow_right (by decide) (Nat.mul_le_mul_left 8 hk))
      rw [scatter64_cons_eq_or hlow]
      exact Nat.or_lt_two_pow hterm (ih hasc hrest p)

/-- The word of an ascending sum, term by term. -/
theorem ofNat_scatter64_cons {k : Nat} {pos : List Nat} (h : ∀ j ∈ pos, k < j) (v : Byte) (p : List Byte) :
    BitVec.ofNat 64 (scatter64 (k :: pos) (v :: p)) =
      v.setWidth 64 <<< (8 * k) ||| BitVec.ofNat 64 (scatter64 pos p) := by
  rw [scatter64_cons_eq_or h, BitVec.ofNat_or]
  rfl

/-- Adding the terms of an ascending sum is OR-ing them, from any start. -/
theorem foldl_or_eq_scatter64 {pos : List Nat} (hasc : pos.Pairwise (· < ·)) (p : List Byte) (acc : Word) :
    (pos.zip p).foldl (fun (v : Word) (e : Nat × Byte) => v ||| (e.2.setWidth 64 <<< (8 * e.1))) acc =
      acc ||| BitVec.ofNat 64 (scatter64 pos p) := by
  induction pos generalizing p acc with
  | nil => simp
  | cons k pos ih =>
    obtain ⟨hlow, hasc⟩ := List.pairwise_cons.mp hasc
    cases p with
    | nil => simp
    | cons v p =>
      rw [List.zip_cons_cons, List.foldl_cons, ih hasc, ofNat_scatter64_cons hlow, BitVec.or_assoc]

theorem positions_lt (b : Byte) : ∀ k ∈ positions b, k < 8 :=
  fun _ hk => (mem_positions.mp hk).1

/-- Settles O40: the positions ascend, so each term adds bits above those before it. -/
theorem decode64SumIsExact : Obligations.Decode64SumIsExact := by
  intro b p hp
  have hasc := positions_pairwise_lt b
  refine ⟨scatter64_lt hasc (positions_lt b) p, ?_⟩
  have hfold := foldl_or_eq_scatter64 hasc p 0#64
  rw [payloadLen64, ← positions_length] at hp
  rw [zip_eq_map_range hp, List.foldl_map, BitVec.zero_or] at hfold
  rw [decode64_eq_scatter64, ← hfold, positions_length]

/-! ### Decoder and encoder (R100, R101) -/

/-- The groups outside the positions are zero. -/
theorem byteGroup_scatter64_of_notMem {pos : List Nat} (hasc : pos.Pairwise (· < ·)) {j : Nat} (hj : j < 8)
    (hmem : j ∉ pos) (p : List Byte) : byteGroup (BitVec.ofNat 64 (scatter64 pos p)) j = 0x00#8 := by
  induction pos generalizing p with
  | nil => exact byteGroup_zero j
  | cons k pos ih =>
    obtain ⟨hlow, hasc⟩ := List.pairwise_cons.mp hasc
    obtain ⟨hjk, hmem⟩ := not_or.mp (mt List.mem_cons.mpr hmem)
    cases p with
    | nil => simp
    | cons v p =>
      rw [ofNat_scatter64_cons hlow, byteGroup_or, byteGroup_shiftLeft v hj, if_neg (Ne.symm hjk), ih hasc hmem,
        BitVec.or_self]

/-- The groups at the positions are the payload, in order. -/
theorem map_byteGroup_scatter64 {pos : List Nat} (hasc : pos.Pairwise (· < ·)) (hpos : ∀ k ∈ pos, k < 8)
    {p : List Byte} (hp : pos.length ≤ p.length) :
    pos.map (byteGroup (BitVec.ofNat 64 (scatter64 pos p))) = p.take pos.length := by
  induction pos generalizing p with
  | nil => rfl
  | cons k pos ih =>
    obtain ⟨hk, hrest⟩ := List.forall_mem_cons.mp hpos
    obtain ⟨hlow, hasc⟩ := List.pairwise_cons.mp hasc
    cases p with
    | nil => cases hp
    | cons v p =>
      have hkpos : k ∉ pos := fun hmem => Nat.lt_irrefl k (hlow k hmem)
      have hhead : byteGroup (BitVec.ofNat 64 (scatter64 (k :: pos) (v :: p))) k = v := by
        rw [ofNat_scatter64_cons hlow, byteGroup_or, byteGroup_shiftLeft v hk, if_pos rfl,
          byteGroup_scatter64_of_notMem hasc hk hkpos, BitVec.or_zero]
      have htail : ∀ j ∈ pos, byteGroup (BitVec.ofNat 64 (scatter64 (k :: pos) (v :: p))) j =
          byteGroup (BitVec.ofNat 64 (scatter64 pos p)) j := by
        intro j hj
        rw [ofNat_scatter64_cons hlow, byteGroup_or, byteGroup_shiftLeft v (hrest j hj), if_neg (hlow j hj).ne,
          BitVec.zero_or]
      rw [List.map_cons, hhead, List.map_congr_left htail, ih hasc hrest (Nat.le_of_succ_le_succ hp)]
      rfl

theorem byteGroup_decode64_of_notMem {b : Byte} {k : Nat} (hk : k < 8) (hmem : k ∉ positions b) (p : List Byte) :
    byteGroup (decode64 b p) k = 0x00#8 := by
  rw [decode64_eq_scatter64]
  exact byteGroup_scatter64_of_notMem (positions_pairwise_lt b) hk hmem p

theorem map_byteGroup_decode64 {b : Byte} {p : List Byte} (hp : payloadLen64 b ≤ p.length) :
    (positions b).map (byteGroup (decode64 b p)) = p.take (payloadLen64 b) := by
  rw [payloadLen64, ← positions_length] at hp ⊢
  rw [decode64_eq_scatter64]
  exact map_byteGroup_scatter64 (positions_pairwise_lt b) (positions_lt b) hp

/-- The decoder inverts the encoder: it puts each payload byte back to its position, and the other groups were
zero. -/
theorem decode64_bitmap64_payload64 (x : Word) : decode64 (bitmap64 x) (payload64 x) = x := by
  have hlen : payloadLen64 (bitmap64 x) = (payload64 x).length := (payload64_length x).symm
  have hmap := map_byteGroup_decode64 hlen.le
  rw [hlen, List.take_length, payload64, List.map_inj_left] at hmap
  refine eq_of_byteGroup_eq fun k hk => ?_
  by_cases hmem : k ∈ positions (bitmap64 x)
  · exact hmap k hmem
  · have hzero : byteGroup x k = 0x00#8 := by simpa [positions_bitmap64, hk] using hmem
    rw [byteGroup_decode64_of_notMem hk hmem, hzero]

/-- With no zero byte in the payload, the groups that carry payload are exactly those that decode to a byte that is
not zero. -/
theorem bitmap64_decode64 {b : Byte} {p : List Byte} (hp : payloadLen64 b ≤ p.length)
    (hne : ∀ v ∈ p.take (payloadLen64 b), v ≠ 0x00#8) : bitmap64 (decode64 b p) = b := by
  rw [← map_byteGroup_decode64 hp, List.forall_mem_map] at hne
  refine eq_of_group_bits fun k hk => ?_
  rw [bitmap64_bit _ hk, Bool.eq_iff_iff, bne_iff_ne]
  have hmem : k ∈ positions b ↔ b.getLsbD (7 - k) = true := by simp [mem_positions, hk]
  rw [← hmem]
  exact ⟨fun h => by_contra fun hnot => h (byteGroup_decode64_of_notMem hk hnot p), hne k⟩

theorem forall_mem_take_iff {p : List Byte} {n : Nat} (hn : n ≤ p.length) :
    (∀ v ∈ p.take n, v ≠ 0x00#8) ↔ ∀ i, i < n → p.getD i 0x00#8 ≠ 0x00#8 := by
  constructor
  · intro h i hi
    rw [List.getD_eq_getElem _ _ (hi.trans_le hn)]
    exact h _ (List.mem_take_iff_getElem.mpr ⟨i, lt_min hi (hi.trans_le hn), rfl⟩)
  · intro h v hv
    obtain ⟨i, hi, rfl⟩ := List.mem_take_iff_getElem.mp hv
    rw [← List.getD_eq_getElem p 0x00#8]
    exact h i (lt_min_iff.mp hi).1

/-- Settles O41: an encoding's payload has no zero byte; and with none, the bitmap comes back, and so does the
payload. -/
theorem canonicalExactly64 : Obligations.CanonicalExactly64 := by
  intro b p hp
  rw [← forall_mem_take_iff hp, encode64, List.cons.injEq]
  constructor
  · rintro ⟨-, hpayload⟩ v hv
    rw [← hpayload] at hv
    exact ne_zero_of_mem_payload64 hv
  · intro hne
    have hbitmap := bitmap64_decode64 hp hne
    exact ⟨hbitmap, by rw [payload64, hbitmap, map_byteGroup_decode64 hp]⟩

/-- Settles O46: the first byte gives the length, and bitmap and payload give the word back. -/
theorem encoding64IsPrefixFree : Obligations.Encoding64IsPrefixFree := by
  have hinj : ∀ x y : Word, encode64 x = encode64 y → x = y := by
    intro x y h
    obtain ⟨hbitmap, hpayload⟩ := List.cons.inj h
    rw [← decode64_bitmap64_payload64 x, hbitmap, hpayload, decode64_bitmap64_payload64]
  refine ⟨hinj, encode64_length, fun x y r r' h => ?_⟩
  have hbitmap : bitmap64 x = bitmap64 y := (List.cons.inj h).1
  have hlen : (encode64 x).length = (encode64 y).length := by
    rw [encode64_length, encode64_length, encodedLen64, hbitmap, encodedLen64]
  obtain ⟨hencode, hrest⟩ := List.append_inj h hlen
  exact ⟨hinj x y hencode, hrest⟩

/-! ### The commands (R96, R98, R99, R101) -/

/-- A length of at most 9 is stored in the 4 bits of `LEN` as it is (R22). -/
theorem toNat_len_of_le {n : Nat} (hn : n ≤ 9) : (BitVec.ofNat 4 n).toNat = n :=
  Nat.mod_eq_of_lt (by omega)

/-- Bytes stored from index `i` on read back as the list of them. -/
theorem map_byte_of_stored {m : Memory} {i : Nat} {bs : List Byte}
    (h : ∀ j, j < bs.length → m.byte (i + j) = bs.getD j Config.unlistedByte) :
    ((List.range bs.length).map fun j => m.byte (i + j)) = bs := by
  apply List.ext_getElem
  · simp
  · intro j hj hj'
    simp [h j hj', hj']

/-- Settles O38, by what the writes of a pack do with an encoding that fits `BUF`. -/
theorem pack64StoresTheEncoding : Obligations.Pack64StoresTheEncoding := by
  refine ⟨fun _ => rfl, fun s hs => ?_⟩
  have hlen := encode64_length_le s.val
  obtain ⟨m, hexec, -, hstored, htail, -⟩ := storeEncoding_spec (s := s) hlen (Nat.le_refl 9)
  have hread : memRead m 0 (encode64 s.val).length = some (encode64 s.val) :=
    memRead_eq_some.mpr ⟨by rwa [Nat.zero_add], (map_byte_of_stored (i := 0) (by simpa using hstored)).symm⟩
  have hdraws : ∀ j, (encode64 s.val).length ≤ j → j ≤ 8 →
      memRead m j 1 = some [Config.tailDraw s.draws j] := by
    intro j hj hj'
    rw [memRead_one (Nat.lt_succ_of_le hj'), htail j hj (Nat.lt_succ_of_le hj')]
  exact ⟨_, (exec_pack64_running hs).trans hexec, hread, hdraws, toNat_len_of_le hlen, rfl⟩

/-- Settles O42: the payload of any bitmap is inside `BUF`. -/
theorem unpack64DecodesTheBuffer : Obligations.Unpack64DecodesTheBuffer := by
  refine ⟨fun _ => rfl, fun s hs => ?_⟩
  have hfits := one_add_payloadLen64_le (s.buf.byte 0)
  exact ⟨_, _, memRead_one (by decide), memRead_eq_some.mpr ⟨hfits, rfl⟩, _, exec_unpack64_running hs, rfl,
    toNat_len_of_le hfits, rfl⟩

/-- Settles O43: the result is a function of the bytes read. -/
theorem unpack64ReadsOnlyTheEncoding : Obligations.Unpack64ReadsOnlyTheEncoding := by
  intro s s' hs hs' hagree
  have hbitmap : s.buf.byte 0 = s'.buf.byte 0 := hagree 0 (Nat.zero_le _)
  have hpayload : ((List.range (payloadLen64 (s.buf.byte 0))).map fun j => s.buf.byte (1 + j)) =
      (List.range (payloadLen64 (s.buf.byte 0))).map fun j => s'.buf.byte (1 + j) := by
    refine List.map_congr_left fun j hj => hagree (1 + j) ?_
    have := List.mem_range.mp hj
    omega
  rw [hbitmap] at hpayload
  refine ⟨_, _, exec_unpack64_running hs, exec_unpack64_running hs', ?_, ?_⟩
  · simp only [driveAny_val, hbitmap, hpayload]
  · simp only [driveAny_len, hbitmap]

/-- Settles O44. -/
theorem plen64SetsLen : Obligations.Plen64SetsLen := by
  refine ⟨fun _ => rfl, fun s hs => ?_⟩
  exact ⟨_, memRead_one (by decide), _, exec_plen64_running hs,
    toNat_len_of_le (one_add_payloadLen64_le (s.buf.byte 0)), rfl⟩

/-- From a `BUF` that holds an encoding, whatever its other bytes, `UNPACK64` gives the word and the length (R101). -/
theorem exec_unpack64_of_stored {s : State} (hs : s.fault = false) {x : Word}
    (hstored : ∀ j, j < (encode64 x).length → s.buf.byte j = (encode64 x).getD j Config.unlistedByte) :
    exec .unpack64 s = .next (driveAny { s with val := x, len := BitVec.ofNat 4 (encodedLen64 x) }) := by
  have hbitmap : s.buf.byte 0 = bitmap64 x := hstored 0 (Nat.zero_lt_succ _)
  have hpayload : ((List.range (payload64 x).length).map fun j => s.buf.byte (1 + j)) = payload64 x := by
    refine map_byte_of_stored fun j hj => ?_
    rw [Nat.add_comm]
    exact hstored (j + 1) (Nat.succ_lt_succ hj)
  rw [payload64_length] at hpayload
  rw [exec_unpack64_running hs, hbitmap, payloadLen64, hpayload, decode64_bitmap64_payload64, encodedLen64]

/-- Settles O45: the pack leaves the encoding in `BUF`, and the unpack reads no other byte. -/
theorem roundTrip64 : Obligations.RoundTrip64 := by
  refine ⟨decode64_bitmap64_payload64, fun s x hs => ?_⟩
  have hlen := encode64_length_le x
  have hs₁ : (driveAny { s with val := x }).fault = false := hs
  obtain ⟨m, hpack, -, hstored, -, -⟩ :=
    storeEncoding_spec (s := driveAny { s with val := x }) hlen (Nat.le_refl 9)
  refine ⟨_, _, _, exec_ldval_running x hs, (exec_pack64_running hs₁).trans hpack,
    exec_unpack64_of_stored (by exact hs) (by exact hstored), rfl, toNat_len_of_le ?_⟩
  rwa [← encode64_length]

end Sys2Proof.Machine
end

section
/-! PROOFS. The 32-bit codec (42_codec32.md): the bitmap and the nibbles of a value, the packing of nibbles into bytes
and its accumulator, the loop form of the encoder, the decoder, the round trip, and the three commands. -/

namespace Sys2Proof.Machine

/-! ### Bitmaps from groups (20_memory.md R46) -/

theorem bitmapOf_eq_full_iff (g : Nat → Bool) : bitmapOf g = 0xFF#8 ↔ ∀ k, k ≤ 7 → g k = true := by
  have hfull : ∀ k, k < 8 → (0xFF#8).getLsbD (7 - k) = true := by decide
  constructor
  · intro h k hk
    rw [← bitmapOf_bit g (Nat.lt_succ_of_le hk), h, hfull k (Nat.lt_succ_of_le hk)]
  · intro h
    refine eq_of_group_bits fun k hk => ?_
    rw [bitmapOf_bit g hk, hfull k hk, h k (Nat.le_of_lt_succ hk)]

theorem positions_full : positions 0xFF#8 = [0, 1, 2, 3, 4, 5, 6, 7] := by decide

/-- The flag of group 0, and the flags of the groups above it moved down by one. -/
theorem bitmapOf_eq_low_or (g : Nat → Bool) :
    bitmapOf g = (if g 0 then 0x80#8 else 0x00#8) ||| bitmapOf (fun k => g (k + 1)) >>> 1 := by
  apply eq_of_group_bits
  intro k hk
  rw [bitmapOf_bit g hk, BitVec.getLsbD_or, BitVec.getLsbD_ushiftRight]
  cases k with
  | zero => cases h : g 0 <;> simp
  | succ k =>
    have hflag : ∀ k, k < 7 → (0x80#8).getLsbD (6 - k) = false := by decide
    have hrest : 1 + (7 - (k + 1)) = 7 - k := by omega
    rw [hrest, bitmapOf_bit _ (by omega)]
    split <;> simp [hflag k (by omega)]

/-- A round sets the flag of group 0 of what is left as bit `7−m`; the groups above it stay for the later rounds. -/
theorem roundBitmapOf_eq (g : Nat → Bool) (b : Byte) {m : Nat} (hm : m < 8) :
    (if g 0 then b ||| 1#8 <<< (7 - m) else b) ||| bitmapOf (fun k => g (k + 1)) >>> (m + 1) =
      b ||| bitmapOf g >>> m := by
  have hflag : ∀ m, m < 8 → 0x80#8 >>> m = 1#8 <<< (7 - m) := by decide
  rw [bitmapOf_eq_low_or g, BitVec.ushiftRight_or_distrib, ← BitVec.shiftRight_add, Nat.add_comm 1 m]
  split
  · rw [hflag m hm, BitVec.or_assoc]
  · rw [BitVec.zero_ushiftRight, BitVec.zero_or]

/-! ### Values by their nibbles (00_scope.md R11) -/

theorem getLsbD_nibGroup (x : Word32) (k i : Nat) :
    (nibGroup x k).getLsbD i = (decide (i < 4) && x.getLsbD (4 * k + i)) :=
  BitVec.getLsbD_extractLsb' ..

/-- Values with the same eight nibbles are equal. -/
theorem eq_of_nibGroup_eq {x y : Word32} (h : ∀ k, k < 8 → nibGroup x k = nibGroup y k) : x = y := by
  apply BitVec.eq_of_getLsbD_eq
  intro i hi
  have hbit := congrArg (BitVec.getLsbD · (i % 4)) (h (i / 4) (by omega))
  simpa only [getLsbD_nibGroup, Nat.mod_lt i (by decide : 4 > 0), Nat.div_add_mod, decide_true, Bool.true_and]
    using hbit

@[simp] theorem nibGroup_zero (k : Nat) : nibGroup 0#32 k = 0x0#4 := BitVec.extractLsb'_zero

theorem nibGroup_or (x y : Word32) (k : Nat) : nibGroup (x ||| y) k = nibGroup x k ||| nibGroup y k :=
  BitVec.extractLsb'_or

/-- A shift by one nibble renumbers the groups. -/
theorem nibGroup_shiftRight (x : Word32) (k : Nat) : nibGroup (x >>> 4) k = nibGroup x (k + 1) := by
  apply BitVec.eq_of_getLsbD_eq
  intro i hi
  simp only [getLsbD_nibGroup, BitVec.getLsbD_ushiftRight]
  congr 2
  omega

theorem nibGroup_eight (x : Word32) : nibGroup x 8 = 0x0#4 := by
  apply BitVec.eq_of_getLsbD_eq
  intro i hi
  simp [getLsbD_nibGroup]

/-- A nibble shifted to group `k` is that group, and every other group is zero. -/
theorem nibGroup_shiftLeft (v : Nibble) {k j : Nat} (hj : j < 8) :
    nibGroup (v.setWidth 32 <<< (4 * k)) j = if k = j then v else 0x0#4 := by
  apply BitVec.eq_of_getLsbD_eq
  intro i hi
  have hbit : 4 * j + i < 32 := by omega
  simp only [getLsbD_nibGroup, BitVec.getLsbD_shiftLeft, BitVec.getLsbD_setWidth, hi, hbit,
    Nat.sub_lt_of_lt hbit, decide_true, Bool.true_and]
  rcases lt_trichotomy k j with hkj | rfl | hjk
  · have hout : 4 ≤ 4 * j + i - 4 * k := by omega
    simp [hkj.ne, BitVec.getLsbD_of_ge v _ hout]
  · simp
  · have hlow : 4 * j + i < 4 * k := by omega
    simp [hjk.ne', hlow]

theorem and_low_eq_nibGroup (x : Word32) : x &&& 0xF#32 = (nibGroup x 0).setWidth 32 := by
  apply BitVec.eq_of_toNat_eq
  have hmask : x.toNat &&& 15 = x.toNat % 2 ^ 4 := Nat.and_two_pow_sub_one_eq_mod x.toNat 4
  rw [BitVec.toNat_and, BitVec.toNat_setWidth, nibGroup, BitVec.extractLsb'_toNat, Nat.mul_zero, Nat.shiftRight_zero]
  exact hmask.trans (Nat.mod_eq_of_lt (by omega)).symm

theorem and_low_eq_zero_iff {x : Word32} : x &&& 0xF#32 = 0#32 ↔ nibGroup x 0 = 0x0#4 := by
  rw [and_low_eq_nibGroup]
  generalize nibGroup x 0 = v
  bv_omega

theorem eq_zero_of_nibGroup_zero {x : Word32} (hlow : nibGroup x 0 = 0x0#4) (hrest : x >>> 4 = 0#32) :
    x = 0#32 := by
  refine eq_of_nibGroup_eq fun k _ => ?_
  rw [nibGroup_zero]
  cases k with
  | zero => exact hlow
  | succ k => rw [← nibGroup_shiftRight, hrest, nibGroup_zero]

/-! ### The encoder: bitmap and nibbles (R110, R111) -/

theorem bitmap32_bit (x : Word32) {k : Nat} (hk : k < 8) :
    (bitmap32 x).getLsbD (7 - k) = (nibGroup x k != 0x0#4) :=
  bitmapOf_bit _ hk

theorem positions_bitmap32 (x : Word32) :
    positions (bitmap32 x) = (List.range 8).filter fun k => nibGroup x k != 0x0#4 :=
  positions_bitmapOf _

theorem bitmap32_zero : bitmap32 0#32 = 0x00#8 := by decide

theorem bitmap32_eq_zero_iff {x : Word32} : bitmap32 x = 0x00#8 ↔ x = 0#32 := by
  refine ⟨fun h => eq_of_nibGroup_eq fun k hk => ?_, fun h => h ▸ bitmap32_zero⟩
  simpa [h] using bitmap32_bit x hk

theorem bitmap32_eq_full_iff {x : Word32} : bitmap32 x = 0xFF#8 ↔ ∀ k, k ≤ 7 → nibGroup x k ≠ 0x0#4 := by
  simp only [bitmap32, bitmapOf_eq_full_iff, bne_iff_ne]

/-- Settles O47: the flag of each group, and from the flags the full bitmap. -/
theorem bitmap32FlagsNonZeroNibbles : Obligations.Bitmap32FlagsNonZeroNibbles := by
  refine ⟨fun x k hk => ?_, bitmap32_zero, fun x => bitmap32_eq_full_iff⟩
  rw [bitmap32_bit x (Nat.lt_succ_of_le hk), bne_iff_ne]

/-- The nibbles at the flagged positions are the nibbles that are not zero. -/
theorem nibbles32_eq_filter (x : Word32) :
    nibbles32 x = ((List.range 8).map (nibGroup x)).filter (· != 0x0#4) := by
  rw [nibbles32, positions_bitmap32, List.filter_map]
  rfl

theorem nibbles32_length (x : Word32) : (nibbles32 x).length = popcount (bitmap32 x) := by
  rw [nibbles32, List.length_map, positions_length]

theorem ne_zero_of_mem_nibbles32 {x : Word32} {v : Nibble} (h : v ∈ nibbles32 x) : v ≠ 0x0#4 := by
  rw [nibbles32_eq_filter] at h
  simpa using (List.mem_filter.mp h).2

theorem nibbles32_zero : nibbles32 0#32 = [] := by decide

/-- Settles O48: a flag is set exactly where the nibble is not zero. -/
theorem nibbles32AreTheNonZeroNibbles : Obligations.Nibbles32AreTheNonZeroNibbles :=
  fun x => ⟨nibbles32_eq_filter x, nibbles32_length x, fun _ => ne_zero_of_mem_nibbles32⟩

/-! ### Nibbles in bytes (R112, R118) -/

/-- Byte `j` holds nibbles `2j` and `2j+1`; past the last nibble both sides are zero (R115). -/
theorem packNibbles_getD (l : List Nibble) (j : Nat) :
    (packNibbles l).getD j 0x00#8 = l.getD (2 * j + 1) 0x0#4 ++ l.getD (2 * j) 0x0#4 := by
  fun_induction packNibbles l generalizing j with
  | case1 => simp
  | case2 low =>
    cases j with
    | zero => rfl
    | succ j => simp [Nat.mul_succ]
  | case3 low high rest ih =>
    cases j with
    | zero => rfl
    | succ j => exact ih j

theorem nibbleOf_two_mul (p : List Byte) (j : Nat) : nibbleOf p (2 * j) = (p.getD j 0x00#8).extractLsb' 0 4 := by
  simp [nibbleOf, Nat.shiftRight_eq_div_pow, BitVec.setWidth_eq_extractLsb']

theorem nibbleOf_two_mul_add_one (p : List Byte) (j : Nat) :
    nibbleOf p (2 * j + 1) = (p.getD j 0x00#8).extractLsb' 4 4 := by
  have hj : (2 * j + 1) / 2 = j := by omega
  simp only [nibbleOf, Nat.shiftRight_eq_div_pow, pow_one, hj, Nat.mul_add_mod]
  rfl

/-- A byte is its two nibbles. -/
theorem nibbleOf_append (p : List Byte) (j : Nat) :
    nibbleOf p (2 * j + 1) ++ nibbleOf p (2 * j) = p.getD j 0x00#8 := by
  rw [nibbleOf_two_mul, nibbleOf_two_mul_add_one,
    BitVec.extractLsb'_append_extractLsb'_eq_extractLsb' (Nat.zero_add 4).symm]
  exact BitVec.extractLsb'_eq_self

/-- Unpacking inverts packing; past the last nibble both sides are zero (R115). -/
theorem nibbleOf_packNibbles (l : List Nibble) (i : Nat) : nibbleOf (packNibbles l) i = l.getD i 0x0#4 := by
  obtain ⟨j, rfl | rfl⟩ := Nat.even_or_odd' i
  · rw [nibbleOf_two_mul, packNibbles_getD, BitVec.extractLsb'_append_eq_right]
  · rw [nibbleOf_two_mul_add_one, packNibbles_getD, BitVec.extractLsb'_append_eq_left]

/-- Equally many bytes are equal when and only when their nibbles are. -/
theorem eq_iff_nibbleOf_eq {p q : List Byte} (hlen : p.length = q.length) :
    p = q ↔ ∀ i, nibbleOf p i = nibbleOf q i := by
  refine ⟨fun h i => h ▸ rfl, fun h => List.ext_getElem hlen fun j hp hq => ?_⟩
  rw [← List.getD_eq_getElem p 0x00#8 hp, ← List.getD_eq_getElem q 0x00#8 hq, ← nibbleOf_append, h, h,
    nibbleOf_append]

theorem nibbleOf_take (p : List Byte) (n i : Nat) :
    nibbleOf (p.take n) i = if i < 2 * n then nibbleOf p i else 0x0#4 := by
  have hi : i / 2 < n ↔ i < 2 * n := by omega
  simp only [nibbleOf, Nat.shiftRight_eq_div_pow, pow_one, List.getD_eq_getElem?_getD, List.getElem?_take, hi]
  split <;> simp

theorem payload32_zero : payload32 0#32 = [] := by decide

theorem payload32_length (x : Word32) : (payload32 x).length = payloadLen32 (bitmap32 x) := by
  rw [payload32, packNibbles_length, nibbles32_length, payloadLen32_eq]

/-! ### The accumulator (R112) -/

/-- Nibble `i` at bits `4i+3 : 4i`: the accumulator of R112, summed exactly. -/
def nibbleSum (l : List Nibble) : Nat := (l.zipIdx.map fun e => e.1.toNat <<< (4 * e.2)).sum

@[simp] theorem nibbleSum_nil : nibbleSum [] = 0 := rfl

theorem nibbleSum_cons (v : Nibble) (l : List Nibble) :
    nibbleSum (v :: l) = 2 ^ 4 * nibbleSum l + v.toNat := by
  have hterm : ∀ e : Nibble × Nat, e.1.toNat <<< (4 * (e.2 + 1)) = 2 ^ 4 * e.1.toNat <<< (4 * e.2) := by
    intro e
    simp only [Nat.shiftLeft_eq]
    ring
  simp only [nibbleSum, List.zipIdx_cons, List.map_cons, List.sum_cons, List.zipIdx_succ, List.map_map,
    Function.comp_def, hterm, List.sum_map_mul_left, Nat.mul_zero, Nat.shiftLeft_zero]
  exact Nat.add_comm ..

theorem nibbleSum_lt (l : List Nibble) : nibbleSum l < 2 ^ (4 * l.length) := by
  induction l with
  | nil => decide
  | cons v l ih =>
    have hv := v.isLt
    rw [nibbleSum_cons, List.length_cons, Nat.mul_succ, Nat.pow_add]
    omega

/-- Digit `i` of the accumulator, to base 16, is nibble `i`: the sum has no carry. -/
theorem nibbleSum_digit (l : List Nibble) (i : Nat) :
    nibbleSum l >>> (4 * i) % 2 ^ 4 = (l.getD i 0x0#4).toNat := by
  induction l generalizing i with
  | nil => simp
  | cons v l ih =>
    have hv := v.isLt
    cases i with
    | zero =>
      rw [nibbleSum_cons, Nat.mul_zero, Nat.shiftRight_zero, Nat.mul_add_mod, Nat.mod_eq_of_lt hv, List.getD_cons_zero]
    | succ i =>
      have hshift : nibbleSum (v :: l) >>> 4 = nibbleSum l := by
        rw [nibbleSum_cons, Nat.shiftRight_eq_div_pow]
        omega
      rw [Nat.mul_succ, Nat.add_comm, Nat.shiftRight_add, hshift, ih, List.getD_cons_succ]

theorem toNat_append_nibbles (high low : Nibble) : (high ++ low).toNat = 2 ^ 4 * high.toNat + low.toNat := by
  rw [BitVec.toNat_append, Nat.shiftLeft_eq, Nat.mul_comm, Nat.two_pow_add_eq_or_of_lt low.isLt]

/-- Byte `j` of the accumulator is byte `j` of the packing, two digits at a time. -/
theorem nibbleSum_byte (l : List Nibble) (j : Nat) :
    nibbleSum l >>> (8 * j) % 2 ^ 8 = ((packNibbles l).getD j 0x00#8).toNat := by
  have hlow : 4 * (2 * j) = 8 * j := by omega
  have hhigh : 4 * (2 * j + 1) = 8 * j + 4 := by omega
  rw [packNibbles_getD, toNat_append_nibbles, ← nibbleSum_digit, ← nibbleSum_digit, hlow, hhigh, Nat.shiftRight_add,
    Nat.shiftRight_eq_div_pow _ 4]
  omega

/-- On 32 bits, the lowest nibble is OR-ed into the rest, as the loop builds the accumulator. -/
theorem ofNat_nibbleSum_cons (v : Nibble) (l : List Nibble) :
    BitVec.ofNat 32 (nibbleSum (v :: l)) = v.setWidth 32 ||| BitVec.ofNat 32 (nibbleSum l) <<< 4 := by
  rw [nibbleSum_cons, Nat.two_pow_add_eq_or_of_lt v.isLt, BitVec.ofNat_or, BitVec.or_comm]
  have hshift : BitVec.ofNat 32 (2 ^ 4 * nibbleSum l) = BitVec.ofNat 32 (nibbleSum l) <<< 4 := by
    apply BitVec.eq_of_toNat_eq
    rw [BitVec.toNat_shiftLeft, BitVec.toNat_ofNat, BitVec.toNat_ofNat, Nat.shiftLeft_eq]
    omega
  rw [hshift, BitVec.ofNat_toNat]

/-- Settles O49: the packing nibble by nibble, and the accumulator digit by digit. -/
theorem payload32PacksTwoNibbles : Obligations.Payload32PacksTwoNibbles := by
  refine ⟨fun x => ⟨?_, fun j _ => ⟨packNibbles_getD _ j, (nibbleSum_byte _ j).symm⟩⟩, payload32_zero⟩
  rw [payload32_length, payloadLen32_eq]

/-! ### The encoder (R113, R116, R123) -/

theorem encode32_length (x : Word32) : (encode32 x).length = encodedLen32 x := by
  rw [encode32, List.length_cons, payload32_length, encodedLen32, payloadLen32, Nat.add_comm]

theorem nibGroup_append_nibGroup (x : Word32) (k : Nat) :
    nibGroup x (k + 1) ++ nibGroup x k = x.extractLsb' (4 * k) 8 :=
  BitVec.extractLsb'_append_extractLsb'_eq_extractLsb' (Nat.mul_succ 4 k)

/-- Settles O51: all eight nibbles are packed, and two adjacent ones are a byte of `x`. -/
theorem encode32OfFullBitmap : Obligations.Encode32OfFullBitmap := by
  intro x hx
  have hbitmap := bitmap32_eq_full_iff.mpr hx
  rw [encode32, payload32, nibbles32, hbitmap, positions_full]
  simp [packNibbles, nibGroup_append_nibGroup x 0, nibGroup_append_nibGroup x 2, nibGroup_append_nibGroup x 4,
    nibGroup_append_nibGroup x 6]

theorem popcount_bitmap32 (x : Word32) :
    popcount (bitmap32 x) = ((List.range 8).filter fun k => nibGroup x k != 0x0#4).length := by
  rw [← positions_length, positions_bitmap32]

/-- Settles O52: a length is 1 and half the count of the bitmap, rounded up, so its ends are those of the count. -/
theorem encodedLength32 : Obligations.EncodedLength32 := by
  intro x
  have hle := popcount_le (bitmap32 x)
  have hlen : encodedLen32 x = 1 + (popcount (bitmap32 x) + 1) / 2 :=
    congrArg (1 + ·) (payloadLen32_eq (bitmap32 x))
  have hzero : popcount (bitmap32 x) = 0 ↔ x = 0#32 := popcount_eq_zero_iff.trans bitmap32_eq_zero_iff
  refine ⟨encode32_length x, ?_⟩
  rw [← popcount_bitmap32, ← hzero, hlen]
  omega

/-! ### The loop form of the encoder (R114) -/

/-- The nibbles of a value are its low nibble, where that is not zero, and the nibbles of the rest. -/
theorem nibbles32_eq_low_append (r : Word32) :
    nibbles32 r = (if nibGroup r 0 = 0x0#4 then [] else [nibGroup r 0]) ++ nibbles32 (r >>> 4) := by
  have hrest : (List.range 8).map (nibGroup (r >>> 4)) =
      (List.range 7).map (fun k => nibGroup r (k + 1)) ++ [0x0#4] := by
    simp [List.range_succ, nibGroup_shiftRight, nibGroup_eight]
  have hall : (List.range 8).map (nibGroup r) =
      nibGroup r 0 :: (List.range 7).map (fun k => nibGroup r (k + 1)) := by
    simp [List.range_succ]
  rw [nibbles32_eq_filter, nibbles32_eq_filter, hrest, hall, List.filter_append, List.filter_cons]
  by_cases h : nibGroup r 0 = 0x0#4 <;> simp [h]

/-- What the rounds from group `m` on make of the bitmap `b`, the accumulator `acc` and the count `c`: they add the
flags of the remainder `r`, shifted to the groups not yet done, and its nibbles, above the `c` already there. -/
def finishRounds32 (m : Nat) (r : Word32) (b : Byte) (acc : Word32) (c : Nat) : Byte × Word32 × Nat :=
  (b ||| bitmap32 r >>> m, acc ||| BitVec.ofNat 32 (nibbleSum (nibbles32 r)) <<< (4 * c),
    c + (nibbles32 r).length)

theorem finishRounds32_zero (m : Nat) (b : Byte) (acc : Word32) (c : Nat) :
    finishRounds32 m 0#32 b acc c = (b, acc, c) := by
  simp [finishRounds32, bitmap32_zero, nibbles32_zero]

/-- A round keeps what the rounds will make of it all. -/
theorem finishRounds32_round (r : Word32) (b : Byte) (acc : Word32) (c : Nat) {m : Nat} (hm : m < 8) :
    finishRounds32 (m + 1) (r >>> 4)
        (if r &&& 0xF#32 == 0#32 then b else b ||| (1#8 <<< (7 - m)))
        (if r &&& 0xF#32 == 0#32 then acc else acc ||| ((r &&& 0xF#32) <<< (4 * c)))
        (if r &&& 0xF#32 == 0#32 then c else c + 1) =
      finishRounds32 m r b acc c := by
  have hbitmap := roundBitmapOf_eq (fun k => nibGroup r k != 0x0#4) b hm
  simp only [bne_iff_ne, ite_not, ne_eq, ← nibGroup_shiftRight] at hbitmap
  simp only [finishRounds32, beq_iff_eq, and_low_eq_zero_iff, nibbles32_eq_low_append r, Prod.mk.injEq]
  refine ⟨hbitmap, ?_⟩
  split
  · exact ⟨rfl, rfl⟩
  · rw [List.singleton_append, ofNat_nibbleSum_cons, and_low_eq_nibGroup, BitVec.shiftLeft_or_distrib,
      ← BitVec.shiftLeft_add, BitVec.or_assoc, List.length_cons, Nat.mul_succ, Nat.add_comm 4]
    exact ⟨rfl, Nat.succ_add_eq_add_succ ..⟩

/-- The rounds with `fuel` groups left, on a remainder that is not zero and has no further groups. Not zero matters:
group 7 is emitted whatever it holds, and a remainder of 0 has stopped the loop before it. -/
theorem encodeRounds32_eq {fuel : Nat} {r : Word32} (b : Byte) (acc : Word32) (c : Nat) (hfuel : fuel ≤ 8)
    (hr : r ≠ 0#32) (hlt : r.toNat < 2 ^ (4 * fuel)) :
    encodeRounds32 fuel r b acc c = finishRounds32 (8 - fuel) r b acc c := by
  fun_induction encodeRounds32 fuel r b acc c with
  | case1 => exact absurd (BitVec.eq_of_toNat_eq (Nat.lt_one_iff.mp hlt)) hr
  | case2 r b acc c =>
    have hrest : r >>> 4 = 0#32 := by bv_omega
    have hlow : r &&& 0xF#32 ≠ 0#32 := fun h => hr (eq_zero_of_nibGroup_zero (and_low_eq_zero_iff.mp h) hrest)
    have hround := finishRounds32_round r b acc c (by decide : 7 < 8)
    rw [hrest, finishRounds32_zero] at hround
    simpa [hlow] using hround
  | case3 fuel r b acc c k zero b' acc' c' hrest =>
    have hk : 8 - (fuel + 2) = k := by omega
    rw [hk, ← finishRounds32_round r b acc c (by omega : k < 8), hrest, finishRounds32_zero]
  | case4 fuel r b acc c k zero b' acc' c' hrest ih =>
    have hk : 8 - (fuel + 2) = k := by omega
    have hk' : 8 - (fuel + 1) = k + 1 := by omega
    have hlt' : (r >>> 4).toNat < 2 ^ (4 * (fuel + 1)) := by
      rw [BitVec.toNat_ushiftRight, Nat.shiftRight_eq_div_pow, Nat.div_lt_iff_lt_mul (by decide), ← Nat.pow_add]
      exact hlt
    rw [ih (by omega) hrest hlt', hk, hk', finishRounds32_round r b acc c (by omega)]

/-- The bytes that the loop cuts from the accumulator are the packed nibbles. -/
theorem map_byte_nibbleSum {l : List Nibble} (hl : l.length ≤ 8) :
    (List.range (ceilHalf l.length)).map (fun j => (BitVec.ofNat 32 (nibbleSum l) >>> (8 * j)).setWidth 8) =
      packNibbles l := by
  have hfits : nibbleSum l < 2 ^ 32 :=
    (nibbleSum_lt l).trans_le (Nat.pow_le_pow_right (by decide) (Nat.mul_le_mul_left 4 hl))
  apply List.ext_getElem
  · simp [packNibbles_length, ceilHalf, Nat.shiftRight_eq_div_pow]
  · intro j _ hj
    apply BitVec.eq_of_toNat_eq
    rw [← List.getD_eq_getElem _ 0x00#8 hj, ← nibbleSum_byte, List.getElem_map, List.getElem_range,
      BitVec.toNat_setWidth, BitVec.toNat_ushiftRight, BitVec.toNat_ofNat, Nat.mod_eq_of_lt hfits]

/-- Settles O50: all eight rounds, on the value itself. -/
theorem encodeLoop32IsTheClosedForm : Obligations.EncodeLoop32IsTheClosedForm := by
  intro x
  by_cases hx : x = 0#32
  · rw [hx]
    decide
  · have hrounds := encodeRounds32_eq 0#8 0#32 0 (Nat.le_refl 8) hx x.isLt
    have hbytes := map_byte_nibbleSum ((nibbles32_length x).le.trans (popcount_le _))
    simp [encodeLoop32, hx, hrounds, finishRounds32, hbytes, encode32, payload32]

/-! ### The decoder (R118) -/

/-- Each term of the OR, from index `n` on, fills the group of its position and leaves the others as they are. -/
theorem nibGroup_foldl_scatter32 {pos : List Nat} (hnodup : pos.Nodup) (p : List Byte) {j : Nat} (hj : j < 8)
    (n : Nat) (acc : Word32) :
    nibGroup ((pos.zipIdx n).foldl (fun v e => v ||| ((nibbleOf p e.2).setWidth 32 <<< (4 * e.1))) acc) j =
      nibGroup acc j ||| if j ∈ pos then nibbleOf p (n + pos.idxOf j) else 0x0#4 := by
  induction pos generalizing n acc with
  | nil => simp
  | cons k pos ih =>
    obtain ⟨hk, hnodup⟩ := List.nodup_cons.mp hnodup
    rw [List.zipIdx_cons, List.foldl_cons, ih hnodup, nibGroup_or, nibGroup_shiftLeft _ hj, BitVec.or_assoc]
    by_cases hkj : k = j
    · subst hkj
      simp [hk]
    · simp [hkj, Ne.symm hkj, List.idxOf_cons_ne _ hkj, Nat.add_assoc, Nat.add_comm 1]

theorem nibGroup_scatter32 {pos : List Nat} (hnodup : pos.Nodup) (p : List Byte) {j : Nat} (hj : j < 8) :
    nibGroup (scatter32 pos p) j = if j ∈ pos then nibbleOf p (pos.idxOf j) else 0x0#4 := by
  rw [scatter32, nibGroup_foldl_scatter32 hnodup p hj, nibGroup_zero, BitVec.zero_or, Nat.zero_add]

/-- The table, the zero and the wired constant scatter over the positions of the bitmap. -/
theorem decode32_eq_scatter32 (b : Byte) (p : List Byte) : decode32 b p = scatter32 (positions b) p := by
  by_cases hend : b = 0x00#8 ∨ b = 0xFF#8
  · have hempty : positions 0x00#8 = [] := by decide
    obtain rfl | rfl := hend
    · simp [decode32, rom_of_illegal, hempty, scatter32]
    · simp [decode32, rom_of_illegal, positions_full]
  · simp only [decode32, rom_of_legal (not_or.mp hend), tableEntry_eq]

theorem positions_nodup (b : Byte) : (positions b).Nodup := (positions_pairwise_lt b).imp Nat.ne_of_lt

/-- The decoded group at the position of index `i` is nibble `i` of the payload; the other groups are zero. -/
theorem nibGroup_decode32 (b : Byte) (p : List Byte) {k : Nat} (hk : k < 8) :
    nibGroup (decode32 b p) k = if k ∈ positions b then nibbleOf p ((positions b).idxOf k) else 0x0#4 := by
  rw [decode32_eq_scatter32, nibGroup_scatter32 (positions_nodup b) p hk]

/-- The nibbles of the little-endian value of four bytes are those of the bytes in order. -/
theorem nibGroup_littleEndian (p0 p1 p2 p3 : Byte) {k : Nat} (hk : k < 8) :
    nibGroup (p3 ++ p2 ++ p1 ++ p0) k = nibbleOf [p0, p1, p2, p3] k := by
  have hextract : ∀ k, nibGroup (p3 ++ p2 ++ p1 ++ p0) k =
      BitVec.extractLsb' (n := 8 + 8 + 8 + 8) (4 * k) 4 (p3 ++ p2 ++ p1 ++ p0) := fun _ => rfl
  rw [hextract]
  interval_cases k <;>
    simp (disch := decide) only [BitVec.extractLsb'_append_eq_of_le, BitVec.extractLsb'_append_eq_of_add_le] <;>
    rfl

/-- The positions with their indices, by index. -/
theorem zipIdx_eq_map_range (pos : List Nat) :
    pos.zipIdx = (List.range pos.length).map fun i => (pos.getD i 0, i) := by
  apply List.ext_getElem
  · simp
  · intro i hi _
    have hpos : i < pos.length := by simpa using hi
    simp [hpos]

/-- Settles O54: the fold by index; and group by group, no nibble from `COUNT(b)` on is read. -/
theorem decode32IsOneFormula : Obligations.Decode32IsOneFormula := by
  refine ⟨fun b p hp => ⟨?_, ?_⟩, fun p0 p1 p2 p3 => ?_⟩
  · rw [decode32_eq_scatter32, scatter32, zipIdx_eq_map_range, List.foldl_map, positions_length]
  · refine eq_of_nibGroup_eq fun k hk => ?_
    rw [nibGroup_decode32 b _ hk, nibGroup_decode32 b _ hk]
    split
    next hmem =>
      have hidx := List.idxOf_lt_length_of_mem hmem
      rw [positions_length] at hidx
      rw [nibbleOf_take, payloadLen32_eq, if_pos (by omega)]
    next => rfl
  · refine eq_of_nibGroup_eq fun k hk => ?_
    rw [nibGroup_decode32 _ _ hk, positions_full, nibGroup_littleEndian _ _ _ _ hk]
    interval_cases k <;> rfl

/-! ### Decoder and encoder (R121, R122) -/

/-- The groups at the positions are the nibbles of the payload, in order. -/
theorem map_nibGroup_decode32 (b : Byte) (p : List Byte) :
    (positions b).map (nibGroup (decode32 b p)) = (List.range (popcount b)).map (nibbleOf p) := by
  apply List.ext_getElem
  · simp [positions_length]
  · intro i hi hi'
    have hpos : i < (positions b).length := by simpa using hi
    have hmem := List.getElem_mem hpos
    simp [nibGroup_decode32 b p (positions_lt b _ hmem), (positions_nodup b).idxOf_getElem]

theorem map_nibbleOf_packNibbles (l : List Nibble) :
    (List.range l.length).map (nibbleOf (packNibbles l)) = l := by
  apply List.ext_getElem
  · simp
  · intro i _ hi
    rw [List.getElem_map, List.getElem_range, nibbleOf_packNibbles, List.getD_eq_getElem _ _ hi]

/-- The decoder inverts the encoder: it puts each nibble back to its position, and the other groups were zero. -/
theorem decode32_bitmap32_payload32 (x : Word32) : decode32 (bitmap32 x) (payload32 x) = x := by
  have hmap := map_nibGroup_decode32 (bitmap32 x) (payload32 x)
  rw [← nibbles32_length, payload32, map_nibbleOf_packNibbles, nibbles32, List.map_inj_left] at hmap
  refine eq_of_nibGroup_eq fun k hk => ?_
  by_cases hmem : k ∈ positions (bitmap32 x)
  · exact hmap k hmem
  · have hzero : nibGroup x k = 0x0#4 := by simpa [positions_bitmap32, hk] using hmem
    rw [nibGroup_decode32 _ _ hk, if_neg hmem, hzero]

/-- With no zero among the nibbles read, the groups that carry payload are exactly those that decode to a nibble that is
not zero. -/
theorem bitmap32_decode32 {b : Byte} {p : List Byte} (hne : ∀ i, i < popcount b → nibbleOf p i ≠ 0x0#4) :
    bitmap32 (decode32 b p) = b := by
  refine eq_of_group_bits fun k hk => ?_
  rw [bitmap32_bit _ hk, nibGroup_decode32 b p hk]
  by_cases hmem : k ∈ positions b
  · have hidx := List.idxOf_lt_length_of_mem hmem
    rw [positions_length] at hidx
    rw [if_pos hmem, (mem_positions.mp hmem).2, bne_iff_ne]
    exact hne _ hidx
  · have hbit : b.getLsbD (7 - k) = false := by simpa [mem_positions, hk] using hmem
    rw [if_neg hmem, hbit]
    rfl

/-- Packing the first `n` nibbles again gives their bytes back, except that it clears the pad of an odd count (R115). -/
theorem packNibbles_map_nibbleOf_eq_take_iff {p : List Byte} {n : Nat} (hp : (n + 1) / 2 ≤ p.length) :
    packNibbles ((List.range n).map (nibbleOf p)) = p.take ((n + 1) / 2) ↔
      (n % 2 = 1 → nibbleOf p n = 0x0#4) := by
  have hlen : (packNibbles ((List.range n).map (nibbleOf p))).length = (p.take ((n + 1) / 2)).length := by
    simp [packNibbles_length, hp]
  have hleft : ∀ i, nibbleOf (packNibbles ((List.range n).map (nibbleOf p))) i =
      if i < n then nibbleOf p i else 0x0#4 := by
    intro i
    rw [nibbleOf_packNibbles]
    split <;> simp [*]
  simp only [eq_iff_nibbleOf_eq hlen, hleft, nibbleOf_take]
  constructor
  · intro h hodd
    have hpad := h n
    rw [if_neg (Nat.lt_irrefl n), if_pos (by omega)] at hpad
    exact hpad.symm
  · intro hpad i
    rcases lt_trichotomy i n with hlt | rfl | hgt
    · rw [if_pos hlt, if_pos (by omega)]
    · rw [if_neg (Nat.lt_irrefl i)]
      split
      · exact (hpad (by omega)).symm
      · rfl
    · rw [if_neg (by omega), if_neg (by omega)]

/-- For an odd count `n`, the high half of the last byte is nibble `n`, the first that is not read. -/
theorem nibbleOf_odd_count {n : Nat} (p : List Byte) (hodd : n % 2 = 1) :
    (p.getD ((n + 1) / 2 - 1) 0x00#8).extractLsb' 4 4 = nibbleOf p n := by
  rw [← nibbleOf_two_mul_add_one]
  congr 1
  omega

/-- Settles O55: an encoding has no zero nibble and a zero pad; and with these, the bitmap comes back, and so does the
payload. -/
theorem canonicalExactly32 : Obligations.CanonicalExactly32 := by
  intro b p hp
  rw [payloadLen32_eq] at hp ⊢
  have hpack := packNibbles_map_nibbleOf_eq_take_iff hp
  have hpad : (popcount b % 2 = 1 → (p.getD ((popcount b + 1) / 2 - 1) 0x00#8).extractLsb' 4 4 = 0x0#4) ↔
      (popcount b % 2 = 1 → nibbleOf p (popcount b) = 0x0#4) :=
    forall_congr' fun hodd => by rw [nibbleOf_odd_count p hodd]
  have hpayload (h : bitmap32 (decode32 b p) = b) :
      nibbles32 (decode32 b p) = (List.range (popcount b)).map (nibbleOf p) := by
    rw [nibbles32, h, map_nibGroup_decode32]
  rw [hpad, ← hpack, encode32, payload32, List.cons.injEq]
  constructor
  · rintro ⟨hbitmap, hbytes⟩
    rw [hpayload hbitmap] at hbytes
    refine ⟨fun i hi => ne_zero_of_mem_nibbles32 (x := decode32 b p) ?_, hbytes⟩
    rw [hpayload hbitmap]
    exact List.mem_map_of_mem (List.mem_range.mpr hi)
  · rintro ⟨hne, hbytes⟩
    have hbitmap := bitmap32_decode32 hne
    exact ⟨hbitmap, by rw [hpayload hbitmap, hbytes]⟩

/-! ### The commands (R117, R119, R120, R122) -/

/-- Settles O53, by what the writes of a pack do with an encoding that fits below `MAXLEN32`. -/
theorem pack32StoresTheEncoding : Obligations.Pack32StoresTheEncoding := by
  refine ⟨fun _ => rfl, fun s hs => ?_⟩
  have hlen := encode32_length_le (s.val.setWidth 32)
  obtain ⟨m, hexec, -, hstored, htail, hkept⟩ := storeEncoding_spec (s := s) hlen (by decide : 5 ≤ 9)
  have hread : memRead m 0 (encode32 (s.val.setWidth 32)).length = some (encode32 (s.val.setWidth 32)) :=
    memRead_eq_some.mpr ⟨by rw [Nat.zero_add]; exact hlen.trans (by decide),
      (map_byte_of_stored (i := 0) (by simpa using hstored)).symm⟩
  have hdraws : ∀ j, (encode32 (s.val.setWidth 32)).length ≤ j → j ≤ 4 →
      memRead m j 1 = some [Config.tailDraw s.draws j] := by
    intro j hj hj'
    rw [memRead_one (hj'.trans_lt (by decide)), htail j hj (Nat.lt_succ_of_le hj')]
  have hrest : ∀ j, 5 ≤ j → memRead m j 1 = memRead s.buf j 1 := by
    intro j hj
    by_cases hj' : j < Config.bufSize
    · exact memRead_congr (hkept j hj hj')
    · rw [memRead_one_none hj', memRead_one_none hj']
  exact ⟨_, (exec_pack32_running hs).trans hexec, hread, hdraws, hrest,
    toNat_len_of_le (hlen.trans (by decide)), rfl⟩

/-- Settles O56: the payload of any bitmap is inside `BUF`. -/
theorem unpack32DecodesTheBuffer : Obligations.Unpack32DecodesTheBuffer := by
  refine ⟨fun _ => rfl, fun s hs => ?_⟩
  have hfits := one_add_payloadLen32_le (s.buf.byte 0)
  simp only [← payloadLen32_eq]
  exact ⟨_, _, memRead_one (by decide), memRead_eq_some.mpr ⟨hfits, rfl⟩, _, exec_unpack32_running hs, rfl,
    toNat_len_of_le hfits, rfl⟩

/-- Settles O57: the result is a function of the bytes read. -/
theorem unpack32ReadsOnlyTheEncoding : Obligations.Unpack32ReadsOnlyTheEncoding := by
  intro s s' hs hs' hagree
  have hbitmap : s.buf.byte 0 = s'.buf.byte 0 := hagree 0 (Nat.zero_le _)
  have hpayload : ((List.range (payloadLen32 (s.buf.byte 0))).map fun j => s.buf.byte (1 + j)) =
      (List.range (payloadLen32 (s.buf.byte 0))).map fun j => s'.buf.byte (1 + j) := by
    refine List.map_congr_left fun j hj => hagree (1 + j) ?_
    have := List.mem_range.mp hj
    omega
  rw [hbitmap] at hpayload
  refine ⟨_, _, exec_unpack32_running hs, exec_unpack32_running hs', ?_, ?_⟩
  · simp only [driveAny_val, hbitmap, hpayload]
  · simp only [driveAny_len, hbitmap]

/-- Settles O58: the length of any bitmap's payload fits `LEN`. -/
theorem plen32SetsLen : Obligations.Plen32SetsLen := by
  refine ⟨fun _ => rfl, fun s hs => ?_⟩
  simp only [← payloadLen32_eq]
  exact ⟨_, memRead_one (by decide), _, exec_plen32_running hs,
    toNat_len_of_le (one_add_payloadLen32_le (s.buf.byte 0)), rfl⟩

/-- From a `BUF` that holds an encoding, whatever its other bytes, `UNPACK32` gives the value, zero-extended, and the
length (R122). -/
theorem exec_unpack32_of_stored {s : State} (hs : s.fault = false) {x : Word32}
    (hstored : ∀ j, j < (encode32 x).length → s.buf.byte j = (encode32 x).getD j Config.unlistedByte) :
    exec .unpack32 s =
      .next (driveAny { s with val := x.setWidth 64, len := BitVec.ofNat 4 (encodedLen32 x) }) := by
  have hbitmap : s.buf.byte 0 = bitmap32 x := hstored 0 (Nat.zero_lt_succ _)
  have hpayload : ((List.range (payload32 x).length).map fun j => s.buf.byte (1 + j)) = payload32 x := by
    refine map_byte_of_stored fun j hj => ?_
    rw [Nat.add_comm]
    exact hstored (j + 1) (Nat.succ_lt_succ hj)
  rw [payload32_length] at hpayload
  rw [exec_unpack32_running hs, hbitmap, hpayload, decode32_bitmap32_payload32, encodedLen32, payloadLen32]

/-- Settles O59: the pack leaves the encoding in `BUF`, and the unpack reads no other byte. -/
theorem roundTrip32 : Obligations.RoundTrip32 := by
  refine ⟨decode32_bitmap32_payload32, fun s x hs => ?_⟩
  have hlen := encode32_length_le (x.setWidth 32)
  have hs₁ : (driveAny { s with val := x }).fault = false := hs
  obtain ⟨m, hpack, -, hstored, -, -⟩ :=
    storeEncoding_spec (s := driveAny { s with val := x }) hlen (by decide : 5 ≤ 9)
  refine ⟨_, _, _, exec_ldval_running x hs, (exec_pack32_running hs₁).trans hpack,
    exec_unpack32_of_stored (by exact hs) (by exact hstored), rfl, toNat_len_of_le ?_⟩
  rw [← encode32_length]
  exact hlen.trans (by decide)

end Sys2Proof.Machine
end

section
/-! PROOFS. The host access commands (43_host_access.md): one byte of `BUF` written and read, the fields of the status
word, and the seven commands. -/

namespace Sys2Proof.Machine

/-! ### One byte of `BUF` (00_scope.md R12) -/

/-- A byte written inside `BUF` is read back. -/
theorem memRead_put_same (m : Memory) {i : Nat} (v : Byte) (hi : i < Config.bufSize) :
    memRead (m.put i [v]) i 1 = some [v] := by
  have hbyte : (m.put i [v]).byte i = v := by
    rw [Memory.byte_put, if_pos hi, if_pos (by simp)]
    simp
  rw [memRead_one hi, hbyte]

/-- One byte written leaves every other index as it was, inside `BUF` and outside. -/
theorem memRead_put_of_ne (m : Memory) {i a : Nat} (v : Byte) (ha : a ≠ i) :
    memRead (m.put i [v]) a 1 = memRead m a 1 := by
  by_cases hin : a < Config.bufSize
  · have hout : ¬(i ≤ a ∧ a < i + [v].length) := by
      rw [List.length_singleton]
      omega
    apply memRead_congr
    rw [Memory.byte_put, if_pos hin, if_neg hout]
  · rw [memRead_one_none hin, memRead_one_none hin]

/-- Settles O24: a legal index writes its one byte, by the two rules above; an illegal one is fault entry. -/
theorem ldbufStoresTheByte : Obligations.LdbufStoresTheByte := by
  refine ⟨decode_ldbuf, fun s idx imm hs => ⟨fun hlegal => ?_, fun hillegal => ?_⟩⟩
  · have hidx : idx.toNat < Config.bufSize := Nat.lt_succ_of_le hlegal
    exact ⟨_, exec_ldbuf_legal imm hs hidx, memRead_put_same s.buf imm hidx,
      fun _ ha => memRead_put_of_ne s.buf imm ha, rfl⟩
  · exact exec_ldbuf_illegal imm hs (Nat.not_lt_of_le hillegal)

/-- Settles O25: a legal index reads inside `BUF`; an illegal one is fault entry. -/
theorem rdbufDrivesTheByte : Obligations.RdbufDrivesTheByte := by
  refine ⟨decode_rdbuf, fun s idx hs => ⟨fun hlegal => ?_, fun hillegal => ?_⟩⟩
  · have hidx : idx.toNat < Config.bufSize := Nat.lt_succ_of_le hlegal
    exact ⟨_, memRead_one hidx, exec_rdbuf_legal hs hidx⟩
  · exact exec_rdbuf_illegal hs (Nat.not_lt_of_le hillegal)

/-! ### The commands without an index (R130, R131, R132, R135) -/

/-- Settles O21. -/
theorem nopLeavesTheState : Obligations.NopLeavesTheState :=
  ⟨fun _ => rfl, fun _ => exec_nop_running⟩

/-- Settles O22. -/
theorem ldvalLoadsVal : Obligations.LdvalLoadsVal :=
  ⟨decode_ldval, fun _ imm => exec_ldval_running imm⟩

/-- Settles O23. -/
theorem rdvalDrivesVal : Obligations.RdvalDrivesVal :=
  ⟨fun _ => rfl, fun _ => exec_rdval_running⟩

/-- Settles O26. -/
theorem rdlenDrivesLen : Obligations.RdlenDrivesLen :=
  ⟨fun _ => rfl, fun _ => exec_rdlen_running⟩

/-! ### The status word (R136) -/

/-- The status word bit by bit: `FAULT` in bit 0, and above it the bits of `FCODE`, which has none beyond its second. -/
theorem getLsbD_statusWord (s : State) {i : Nat} (hi : i < 64) :
    (statusWord s).getLsbD i = if i = 0 then s.fault else (faultCodeBits s.fcode).getLsbD (i - 1) := by
  rw [statusWord, BitVec.getLsbD_setWidth, BitVec.getLsbD_append]
  cases i with
  | zero => simp
  | succ i => simp [hi]

theorem extractLsb'_statusWord_fcode (s : State) : (statusWord s).extractLsb' 1 2 = faultCodeBits s.fcode := by
  apply BitVec.eq_of_getLsbD_eq
  intro i hi
  rw [BitVec.getLsbD_extractLsb', getLsbD_statusWord s (by omega)]
  simp [hi]

theorem extractLsb'_statusWord_high (s : State) : (statusWord s).extractLsb' 3 61 = 0#61 := by
  apply BitVec.eq_of_getLsbD_eq
  intro i hi
  have hbeyond : (faultCodeBits s.fcode).getLsbD (3 + i - 1) = false := BitVec.getLsbD_of_ge _ _ (by omega)
  rw [BitVec.getLsbD_extractLsb', getLsbD_statusWord s (by omega), hbeyond]
  simp

/-- Where `FAULT` and `FCODE` agree (R25), the status is 0 in a running block, and odd with the code of the cause in a
halted one. -/
theorem statusWord_cases {s : State} (hagree : s.fault = false ↔ s.fcode = .noCause) :
    statusWord s = 0#64 ∨ statusWord s = 3#64 ∨ statusWord s = 5#64 ∨ statusWord s = 7#64 := by
  have hfault : s.fault = decide (s.fcode ≠ .noCause) := by
    rw [Bool.eq_iff_iff, decide_eq_true_iff, ← Bool.not_eq_false]
    exact not_congr hagree
  rw [statusWord, hfault]
  cases s.fcode with
  | noCause => exact .inl rfl
  | reservedCmd => exact .inr (.inl rfl)
  | bufIndex => exact .inr (.inr (.inl rfl))
  | romIndex => exact .inr (.inr (.inr rfl))

/-- Settles O27: the status word, running or halted, read field by field. -/
theorem rdstatDrivesTheStatus : Obligations.RdstatDrivesTheStatus :=
  ⟨fun _ => rfl, fun s => ⟨statusWord s, exec_rdstat s, getLsbD_statusWord s (Nat.zero_lt_succ 63),
    extractLsb'_statusWord_fcode s, extractLsb'_statusWord_high s, statusWord_cases⟩⟩

end Sys2Proof.Machine
end

section
/-! PROOFS. Faults (60_exceptions.md): the cause an operand raises, fault entry, and what a halted block does. -/

namespace Sys2Proof.Machine

/-! ### The cause of an operand (R151) -/

theorem not_legalRomIndex_iff {row : Byte} : ¬ legalRomIndex row = true ↔ row = 0x00#8 ∨ row = 0xFF#8 := by
  rw [legalRomIndex_iff, or_iff_not_and_not]

/-- The cause that the operand check of a command raises (R62, R86, R151). -/
def operandCause : Instr → FaultCode
  | .ldbuf idx _ | .rdbuf idx => if legalBufIndex idx then .noCause else .bufIndex
  | .rdrom row => if legalRomIndex row then .noCause else .romIndex
  | .nop | .ldval _ | .rdval | .rdlen | .rdstat | .pack64 | .unpack64 | .plen64
  | .pack32 | .unpack32 | .plen32 => .noCause

/-- The operand check raises no cause exactly when the operands are legal. -/
theorem operandCause_eq_noCause_iff {i : Instr} : operandCause i = .noCause ↔ i.wellFormed = true := by
  cases i with
  | ldbuf idx _ | rdbuf idx => simp [operandCause, Instr.wellFormed]
  | rdrom row => simp [operandCause, Instr.wellFormed]
  | _ => exact iff_of_true rfl rfl

/-- A command with legal operands writes neither `FAULT` nor `FCODE`. -/
theorem exec_keeps_fault_of_wellFormed {i : Instr} {s t : State} (hwf : i.wellFormed = true)
    (h : exec i s = .next t) : t.fault = s.fault ∧ t.fcode = s.fcode := by
  cases ExecEffect.of_exec h with
  | ldbufFault _ _ hidx | rdbufFault _ hidx => exact absurd (legalBufIndex_iff.mp hwf) hidx
  | rdromFault _ hrow => exact absurd hrow (not_or.mpr (legalRomIndex_iff.mp hwf))
  | _ => exact ⟨rfl, rfl⟩

/-- An illegal operand's whole effect is fault entry with its cause (R152). -/
theorem exec_of_not_wellFormed {i : Instr} {s : State} (hs : s.fault = false) (hwf : i.wellFormed = false) :
    exec i s = .next (raiseFault (operandCause i) s) := by
  have hillegal : i.wellFormed ≠ true := Bool.eq_false_iff.mp hwf
  cases i with
  | ldbuf idx imm =>
    have hcause : operandCause (.ldbuf idx imm) = .bufIndex := if_neg hillegal
    rw [hcause]
    exact exec_ldbuf_illegal imm hs (mt legalBufIndex_iff.mpr hillegal)
  | rdbuf idx =>
    have hcause : operandCause (.rdbuf idx) = .bufIndex := if_neg hillegal
    rw [hcause]
    exact exec_rdbuf_illegal hs (mt legalBufIndex_iff.mpr hillegal)
  | rdrom row =>
    have hcause : operandCause (.rdrom row) = .romIndex := if_neg hillegal
    rw [hcause]
    exact exec_rdrom_illegal hs (not_legalRomIndex_iff.mp hillegal)
  | _ => cases hwf

/-! ### The cause of a presented command (R151) -/

/-- A word that the decoder rejects has the cause `RESERVED_CMD`. -/
theorem causeOf_of_decode_error {cmd : Byte} {wdata : Word} {e : DecodeError}
    (h : decode cmd wdata = .error e) : causeOf cmd wdata = .reservedCmd :=
  if_pos ((decoderRejectsExactlyReservedWords cmd wdata).mp ⟨e, h⟩)

/-- A word that is neither reserved, nor has an illegal index, nor is that of `RDROM`, has no cause. -/
theorem causeOf_eq_noCause {cmd : Byte} (hreserved : reservedWord cmd = false)
    (hindex : illegalIndexWord cmd = false) (hrom : cmd ≠ 0x60#8) (wdata : Word) :
    causeOf cmd wdata = .noCause := by
  simp [causeOf, hreserved, hindex, hrom]

/-- `RDROM` has the cause `ROM_INDEX` exactly for an excluded row. -/
theorem causeOf_rdrom_word (wdata : Word) :
    causeOf 0x60#8 wdata = if legalRomIndex (wdata.setWidth 8) then .noCause else .romIndex := by
  have hreserved : reservedWord 0x60#8 = false := rfl
  have hindex : illegalIndexWord 0x60#8 = false := rfl
  simp only [causeOf, hreserved, hindex, Bool.false_eq_true, if_false, true_and, ← not_legalRomIndex_iff, ite_not]

/-- A word of `LDBUF` or `RDBUF` has the cause `BUF_INDEX` exactly for an illegal index. -/
theorem causeOf_index_word {op : Nibble} (hop : op = 0x3#4 ∨ op = 0x4#4) (idx : Nibble) (wdata : Word) :
    causeOf (op ++ idx) wdata = if legalBufIndex idx then .noCause else .bufIndex := by
  have hreserved : reservedWord (op ++ idx) = false := by
    rcases hop with rfl | rfl <;> simp [reservedWord]
  have hillegal : illegalIndexWord (op ++ idx) = true ↔ ¬ legalBufIndex idx = true := by
    rcases hop with rfl | rfl <;> simp [illegalIndexWord, legalBufIndex]
  have hrom : op ++ idx ≠ 0x60#8 := fun h => by
    have : op = 0x6#4 := (opField_append op idx).symm.trans (congrArg opField h)
    rcases hop with rfl | rfl <;> cases this
  simp only [causeOf, hreserved, hillegal, hrom, Bool.false_eq_true, if_false, false_and, ite_not]

/-- The table's cause of a word that decodes is that of the decoded operand. -/
theorem causeOf_of_decode_ok {cmd : Byte} {wdata : Word} {i : Instr} (h : decode cmd wdata = .ok i) :
    causeOf cmd wdata = operandCause i := by
  have hcmd : cmd = (encode i).1 := (congrArg Prod.fst (decodedPairIsItsEncoding cmd wdata i h)).symm
  subst hcmd
  cases i with
  | ldbuf idx _ => exact causeOf_index_word (.inl rfl) idx wdata
  | rdbuf idx => exact causeOf_index_word (.inr rfl) idx wdata
  | rdrom row =>
    cases (decode_rdrom wdata).symm.trans h
    exact causeOf_rdrom_word wdata
  | ldval imm => exact causeOf_eq_noCause (cmd := 0x10#8) rfl rfl (by decide) wdata
  | _ => exact causeOf_eq_noCause rfl rfl (by decide) wdata

/-! ### The step of a running block -/

/-- A command presented to a running block is rejected when its word is reserved (R153). -/
theorem actionOf_reserved {p : PortIn} {e : DecodeError} (hrst : p.rst = false) (hvalid : p.cmdValid = true)
    (hdecode : decode p.cmd p.wdata = .error e) : actionOf p false = .reserved := by
  simp [actionOf, hrst, hvalid, hdecode]

/-- Settles O14: a reserved word faults by itself, and a command that decodes by its operand. -/
theorem commandsFaultExactlyByTheTable : Obligations.CommandsFaultExactlyByTheTable := by
  intro s p rest hport hrst hvalid hs
  cases hdecode : decode p.cmd p.wdata with
  | error e =>
    have hstep : step s = .next (raiseFault .reservedCmd (takeInput s)) := by
      simp only [step, presented_of_port hport, hs, actionOf_reserved hrst hvalid hdecode]
    rw [causeOf_of_decode_error hdecode]
    exact ⟨_, hstep, fun h => absurd h (by decide), fun _ => ⟨rfl, rfl⟩⟩
  | ok i =>
    rw [stepRunsTheDecodedCommand s p rest i hport hrst hvalid hs hdecode, causeOf_of_decode_ok hdecode]
    cases hwf : i.wellFormed with
    | true =>
      obtain ⟨t, hexec, -⟩ := exec_effect i { s with port := rest }
      obtain ⟨hfault, hfcode⟩ := exec_keeps_fault_of_wellFormed hwf hexec
      exact ⟨t, hexec, fun _ => ⟨hfault.trans hs, hfcode⟩,
        fun hcause => absurd (operandCause_eq_noCause_iff.mpr hwf) hcause⟩
    | false =>
      have hcause : operandCause i ≠ .noCause := by simp [operandCause_eq_noCause_iff, hwf]
      exact ⟨_, exec_of_not_wellFormed hs hwf, fun h => absurd h hcause, fun _ => ⟨rfl, rfl⟩⟩

/-- A command that sets `FAULT` does nothing but fault entry with a cause (R152). -/
theorem exec_fault_entry {i : Instr} {s t : State} (hs : s.fault = false) (h : exec i s = .next t)
    (ht : t.fault = true) : ∃ c, c ≠ .noCause ∧ t = raiseFault c s := by
  cases ExecEffect.of_exec h with
  | ldbufFault | rdbufFault | rdromFault => exact ⟨_, by decide, rfl⟩
  | _ => cases hs.symm.trans ht

/-- Settles O15: of what a step can do, only a reserved word and an illegal operand set `FAULT`. -/
theorem faultEntryWritesNothingElse : Obligations.FaultEntryWritesNothingElse := by
  intro s t hs h ht
  obtain ⟨-, rfl⟩ | ⟨-, rfl⟩ | ⟨-, rfl⟩ | ⟨i, -, hexec⟩ := step_next_cases h
  · cases ht
  · cases hs.symm.trans ht
  · exact ⟨by simp, rfl⟩
  · obtain ⟨c, hc, rfl⟩ := exec_fault_entry (s := takeInput s) hs hexec ht
    exact ⟨hc, rfl⟩

/-- A codec command has no operand check. -/
theorem wellFormed_of_isCodec {i : Instr} (h : isCodec i = true) : i.wellFormed = true := by
  cases i with
  | ldbuf | rdbuf | rdrom => cases h
  | _ => rfl

/-- Settles O18: every command answers, and a codec command has no operand to be illegal. -/
theorem codecCommandsNeverFault : Obligations.CodecCommandsNeverFault := by
  intro i s hcodec hs
  obtain ⟨t, hexec, -⟩ := exec_effect i s
  obtain ⟨hfault, hfcode⟩ := exec_keeps_fault_of_wellFormed (wellFormed_of_isCodec hcodec) hexec
  exact ⟨t, hexec, hfault.trans hs, hfcode⟩

/-! ### The step of a halted block (R153, R154) -/

/-- Without a reset, a halted block presented anything but `RDSTAT` changes nothing. -/
theorem step_halted {s : State} (hs : s.fault = true) (hrst : (presented s).rst = false)
    (hcmd : ¬ ((presented s).cmdValid = true ∧ (presented s).cmd = 0x70#8)) :
    step s = .next (noEffect (takeInput s)) := by
  cases hvalid : (presented s).cmdValid with
  | false => simp [step, actionOf, hrst, hvalid]
  | true =>
    have hword : (presented s).cmd ≠ 0x70#8 := fun h => hcmd ⟨hvalid, h⟩
    simp [step, actionOf, hrst, hvalid, hs, hword]

/-- Without a reset, `RDSTAT` executes, running or halted (R136). -/
theorem step_rdstat {s : State} (hrst : (presented s).rst = false) (hvalid : (presented s).cmdValid = true)
    (hword : (presented s).cmd = 0x70#8) : step s = .next (drive (statusWord s) (takeInput s)) := by
  have hdecode : decode (presented s).cmd (presented s).wdata = .ok .rdstat := by
    rw [hword]
    rfl
  have haction : actionOf (presented s) s.fault = .run .rdstat := by
    simp only [actionOf, hrst, hvalid, hdecode]
    simp [hword]
  exact (step_of_run haction).trans (exec_rdstat _)

/-- Settles O16, by the two steps of a halted block. -/
theorem haltedBlockExecutesOnlyRdstat : Obligations.HaltedBlockExecutesOnlyRdstat := by
  intro s p rest hport hrst hs
  obtain rfl := presented_of_port hport
  refine ⟨fun hcmd => ?_, fun hvalid hword => ?_⟩
  · rw [step_halted hs hrst hcmd, takeInput_of_port hport]
    rfl
  · rw [step_rdstat hrst hvalid hword, takeInput_of_port hport, statusWord, hs]
    rfl

/-- A reset is presented by the first input lined up: an exhausted list is idle. -/
theorem exists_port_of_presented_rst {s : State} (h : (presented s).rst = true) :
    ∃ p rest, s.port = p :: rest ∧ p.rst = true := by
  cases hport : s.port with
  | nil => simp [presented, hport, idleInput] at h
  | cons p rest => exact ⟨p, rest, rfl, by rwa [presented_of_port hport] at h⟩

theorem step_reset {s : State} (h : (presented s).rst = true) : step s = .next (resetStep (takeInput s)) := by
  simp [step, actionOf, h]

/-- Settles O17: a halted block resets, changes nothing, or executes `RDSTAT`. -/
theorem onlyResetClearsFault : Obligations.OnlyResetClearsFault := by
  intro s t hs h
  cases hrst : (presented s).rst with
  | true =>
    cases (step_reset hrst).symm.trans h
    have hbuf : memRead [] 0 9 = some (List.replicate 9 0x00#8) := by decide
    exact .inl ⟨exists_port_of_presented_rst hrst, rfl, rfl, rfl, hbuf, rfl⟩
  | false =>
    by_cases hcmd : (presented s).cmdValid = true ∧ (presented s).cmd = 0x70#8
    · obtain ⟨hvalid, hword⟩ := hcmd
      cases (step_rdstat hrst hvalid hword).symm.trans h
      exact .inr ⟨hs, rfl, rfl, rfl, rfl⟩
    · cases (step_halted hs hrst hcmd).symm.trans h
      exact .inr ⟨hs, rfl, rfl, rfl, rfl⟩

end Sys2Proof.Machine
end

section
/-! PROOFS. The steps in which the block executes nothing because the host says so: reset (70_reset_and_hazards.md R170)
and idle (R184). -/

namespace Sys2Proof.Machine

/-- Settles O7: of the state before, the reset step keeps the later inputs and the count of draws only; `BUF` is that of
`State.reset`, which reads as zeros (R31). -/
theorem resetStepGivesTheResetState : Obligations.ResetStepGivesTheResetState := by
  intro s p rest hport hrst
  have hpresented : (presented s).rst = true := by rwa [presented_of_port hport]
  have hrest : (resetStep (takeInput s)).port = rest := by simp [hport]
  obtain ⟨-, hbuf, -⟩ := resetValues
  exact ⟨_, step_reset hpresented, rfl, hbuf, rfl, rfl, rfl, hrest, rfl, rfl⟩

/-- Without a reset or a command, the step is idle, running or halted (R153, R184). -/
theorem step_idle {s : State} (hrst : (presented s).rst = false) (hvalid : (presented s).cmdValid = false) :
    step s = .next (noEffect (takeInput s)) := by
  simp [step, actionOf, hrst, hvalid]

/-- Settles O9, by the idle step on the state with the input taken. -/
theorem idleStepChangesNoState : Obligations.IdleStepChangesNoState := by
  intro s p rest hport hrst hvalid
  obtain rfl := presented_of_port hport
  rw [step_idle hrst hvalid, takeInput_of_port hport]
  rfl

end Sys2Proof.Machine
end

section
/-! PROOFS. The step once the host's list of inputs is exhausted (log 2). -/

namespace Sys2Proof.Machine

theorem presented_of_exhausted {s : State} (h : s.port = []) : presented s = idleInput := by
  simp [presented, h]

theorem takeInput_of_exhausted {s : State} (h : s.port = []) : takeInput s = s := by
  cases s
  cases h
  rfl

/-- Settles O10: an exhausted list presents `idleInput`, and there is no input to take. -/
theorem exhaustedHostListIsIdle : Obligations.ExhaustedHostListIsIdle := by
  intro s hport
  have hpresented : presented s = idleInput := presented_of_exhausted hport
  have hstep : step s = .next (noEffect (takeInput s)) := step_idle (by rw [hpresented]; rfl) (by rw [hpresented]; rfl)
  rw [hstep, takeInput_of_exhausted hport]
  rfl

end Sys2Proof.Machine
end
